-- ==== Sys2Proof/Word.lean ====
section
/-! DEFINITION. The plain values of the NtgrBak codec block: bytes, 32-bit words, groups of eight bytes and the three
command flags (spec/00_scope.md R7, spec/10_state.md R10 and R13). -/

namespace Sys2Proof

/-- A byte is 8 bits (R7). -/
abbrev Byte := BitVec 8

/-- The width of every host register and of a command word (R12, R50). -/
abbrev Word := BitVec 32

/-- Eight bytes, index 0 first: `KeyState` (R10), a key (R70), a cipher block (R80). -/
structure Bytes8 where
  b0 : Byte
  b1 : Byte
  b2 : Byte
  b3 : Byte
  b4 : Byte
  b5 : Byte
  b6 : Byte
  b7 : Byte
  deriving DecidableEq, Repr, Inhabited

/-- The byte sequence of a group of eight, lowest index first (R7). -/
def Bytes8.toList (k : Bytes8) : List Byte := [k.b0, k.b1, k.b2, k.b3, k.b4, k.b5, k.b6, k.b7]

/-- The flag bits of a command word (R13, R50): `f` = force (bit 8), `mv` = magic supplied (bit 9), `vv` = version
supplied (bit 10). -/
structure CmdFlags where
  f : Bool
  mv : Bool
  vv : Bool
  deriving DecidableEq, Repr

end Sys2Proof
end

