-- ==== Sys2Proof/Syntax.lean ====
section
/-! DEFINITION. The fifteen commands of spec/30_encoding.md R51, one constructor per row of spec/opcode_table.json. A
command carries its three flag bits at whatever value they have: R51 lets every flag be 0 or 1 on every command, and a
command ignores those it does not read. -/

namespace Sys2Proof

/-- A legal command (R51): its operation, with the flags of its word. -/
inductive Instr where
  /-- `KS.RESEED`, OPC 0x01 (R71). -/
  | ksReseed (fl : CmdFlags)
  /-- `KS.NEXT`, OPC 0x02 (R72). -/
  | ksNext (fl : CmdFlags)
  /-- `BC.ENC`, OPC 0x03 (R82). -/
  | bcEnc (fl : CmdFlags)
  /-- `BC.DEC`, OPC 0x04 (R83). -/
  | bcDec (fl : CmdFlags)
  /-- `CS.CALC`, OPC 0x05 (R91). -/
  | csCalc (fl : CmdFlags)
  /-- `CS.VERIFY`, OPC 0x06 (R92). -/
  | csVerify (fl : CmdFlags)
  /-- `CS.APPLY`, OPC 0x07 (R93). -/
  | csApply (fl : CmdFlags)
  /-- `MG.DERIVE`, OPC 0x08 (R101). -/
  | mgDerive (fl : CmdFlags)
  /-- `MG.NAME`, OPC 0x09 (R103). -/
  | mgName (fl : CmdFlags)
  /-- `CFG.DECRYPT`, OPC 0x0A (R113). -/
  | cfgDecrypt (fl : CmdFlags)
  /-- `CFG.EXTRACT`, OPC 0x0B, reads `F` (R114). -/
  | cfgExtract (fl : CmdFlags)
  /-- `CFG.WRAP`, OPC 0x0C, reads `MV` and `VV` (R118). -/
  | cfgWrap (fl : CmdFlags)
  /-- `NV.CRC8`, OPC 0x0D (R133). -/
  | nvCrc8 (fl : CmdFlags)
  /-- `NV.EXTRACT`, OPC 0x0E, reads `F` (R135). -/
  | nvExtract (fl : CmdFlags)
  /-- `NV.WRAP`, OPC 0x0F (R139). -/
  | nvWrap (fl : CmdFlags)
  deriving DecidableEq, Repr

/-- The operation code of a command, `CMD[7:0]` (R51). -/
def Instr.opc : Instr → Byte
  | .ksReseed _ => 0x01#8
  | .ksNext _ => 0x02#8
  | .bcEnc _ => 0x03#8
  | .bcDec _ => 0x04#8
  | .csCalc _ => 0x05#8
  | .csVerify _ => 0x06#8
  | .csApply _ => 0x07#8
  | .mgDerive _ => 0x08#8
  | .mgName _ => 0x09#8
  | .cfgDecrypt _ => 0x0A#8
  | .cfgExtract _ => 0x0B#8
  | .cfgWrap _ => 0x0C#8
  | .nvCrc8 _ => 0x0D#8
  | .nvExtract _ => 0x0E#8
  | .nvWrap _ => 0x0F#8

/-- The flags of a command, `CMD[10:8]` (R13). -/
def Instr.flags : Instr → CmdFlags
  | .ksReseed fl => fl
  | .ksNext fl => fl
  | .bcEnc fl => fl
  | .bcDec fl => fl
  | .csCalc fl => fl
  | .csVerify fl => fl
  | .csApply fl => fl
  | .mgDerive fl => fl
  | .mgName fl => fl
  | .cfgDecrypt fl => fl
  | .cfgExtract fl => fl
  | .cfgWrap fl => fl
  | .nvCrc8 fl => fl
  | .nvExtract fl => fl
  | .nvWrap fl => fl

end Sys2Proof
end

