-- ==== Sys2Proof/WellFormed.lean ====
section
/-! DEFINITION. Which command words are legal (spec/30_encoding.md R50, R54). Every term of `Instr` is well formed: its
constructor is one of the fifteen codes and each flag is free (R51), so the checks are on the word a host writes. -/

namespace Sys2Proof

/-- `RSV`, bits 31:11, must be 0 (R50). -/
def reservedBitsClear (w : Word) : Bool := w.extractLsb' 11 21 == 0#21

/-- `OPC`, bits 7:0, is one of the fifteen codes 0x01 to 0x0F (R51). -/
def opcodeAssigned (w : Word) : Bool :=
  decide (1 ≤ (w.extractLsb' 0 8).toNat) && decide ((w.extractLsb' 0 8).toNat ≤ 15)

/-- A legal command word (R50, R54). -/
def wordWf (w : Word) : Bool := reservedBitsClear w && opcodeAssigned w

/-- A well-formed command: its operation code is an assigned one; its flags are free (R51). -/
def Instr.wf (i : Instr) : Bool := decide (1 ≤ i.opc.toNat) && decide (i.opc.toNat ≤ 15)

end Sys2Proof
end

