-- ==== Sys2Proof/Decode.lean ====
section
/-! DEFINITION. The decoder of command words, total, with a name for each way a word is illegal (spec/30_encoding.md
R50, R51, R54), and the encoder from the same table (R61: `w = OPC + 0x100*F + 0x200*MV + 0x400*VV`). -/

namespace Sys2Proof

/-- Why a word is no command (R54). -/
inductive DecodeError where
  /-- A bit of `RSV` (31:11) is 1. -/
  | reservedBits
  /-- `OPC` is 0x00 or 0x10 to 0xFF. -/
  | reservedOpcode (opc : Byte)
  deriving DecidableEq, Repr

/-- The flag bits 8, 9, 10 of a word (R50). -/
def flagsOf (w : Word) : CmdFlags := { f := w.getLsbD 8, mv := w.getLsbD 9, vv := w.getLsbD 10 }

/-- The command R51 names for an operation code. -/
def instrOf (opc : Byte) (fl : CmdFlags) : Option Instr :=
  match opc.toNat with
  | 0x01 => some (.ksReseed fl)
  | 0x02 => some (.ksNext fl)
  | 0x03 => some (.bcEnc fl)
  | 0x04 => some (.bcDec fl)
  | 0x05 => some (.csCalc fl)
  | 0x06 => some (.csVerify fl)
  | 0x07 => some (.csApply fl)
  | 0x08 => some (.mgDerive fl)
  | 0x09 => some (.mgName fl)
  | 0x0A => some (.cfgDecrypt fl)
  | 0x0B => some (.cfgExtract fl)
  | 0x0C => some (.cfgWrap fl)
  | 0x0D => some (.nvCrc8 fl)
  | 0x0E => some (.nvExtract fl)
  | 0x0F => some (.nvWrap fl)
  | _ => none

/-- Decoding (R50): the reserved bits, then the operation code. -/
def decode (w : Word) : Except DecodeError Instr :=
  if reservedBitsClear w then
    match instrOf (w.extractLsb' 0 8) (flagsOf w) with
    | some i => .ok i
    | none => .error (.reservedOpcode (w.extractLsb' 0 8))
  else .error .reservedBits

/-- The word of a command (R50, R61). -/
def encode (i : Instr) : Word :=
  BitVec.ofNat 32
    (i.opc.toNat + 0x100 * i.flags.f.toNat + 0x200 * i.flags.mv.toNat + 0x400 * i.flags.vv.toNat)

/-- The command the decoder reads from a row's bits as spec/opcode_table.json numbers them: one 32-bit word. -/
def decodeTableWord (_nbits w : Nat) : Option Instr :=
  if w < 2 ^ 32 then (decode (BitVec.ofNat 32 w)).toOption else none

end Sys2Proof
end

