-- ==== Sys2Proof/Config.lean ====
section
/-! DEFINITION. What is fixed for the whole life of a block (spec/10_state.md R21): the constants the source fixes
(spec/00_scope.md R3, R4), the open parameters (R5) as opaque constants with exactly the constraints R5 puts on them,
and the free bytes that unspecified buffer bytes read as. Nothing here is evaluated: an opaque constant has no value
that a proof can see. -/

namespace Sys2Proof.Config

/-! ### Constants (R3, R4) -/

/-- `CFG_HDR`, the configuration header's size. -/
abbrev cfgHdr : Nat := 24

/-- `NV_HDR`, the NVRAM header's size. -/
abbrev nvHdr : Nat := 20

/-- `NV_IMAGE`, the fixed NVRAM image size. -/
abbrev nvImage : Nat := 65536

/-- `NV_DATA_MAX`, the largest NVRAM data region. -/
abbrev nvDataMax : Nat := 65516

/-- `NV_FILL`, the filler after the data region. -/
def nvFill : Byte := 0xFF#8

/-- `NV_PAD`, the pad up to a 4-byte boundary. -/
def nvPad : Byte := 0x00#8

/-- `NAME_MAX`, the model name buffer's size. -/
abbrev nameMax : Nat := 16

/-- `KS_STEP`, what one key adds to byte 0 of `KeyState`. -/
def ksStep : Byte := 8#8

/-- `CSUM_EMPTY`, the checksum of an empty buffer. -/
def csumEmpty : Word := 0xFFFFFFFF#32

/-- `KS_SEED` (R4): the ASCII characters `NtgrBak` and the pad byte 0x00 (the spec's decision D12). -/
def ksSeed : Bytes8 := ⟨0x4E, 0x74, 0x67, 0x72, 0x42, 0x61, 0x6B, 0x00⟩

/-- The newline byte (R60; the spec's decision D35). -/
def newline : Byte := 0x0A#8

/-! ### Open parameters (R5) -/

/-- The block cipher, open (D13, R85; log entry 7): for each key a permutation of the 8-byte blocks, which is what the
inverse law of R5 says of the pair `BC_E`, `BC_D`. -/
opaque cipher : Bytes8 → Equiv.Perm Bytes8

/-- `BC_E(k, b)`. -/
def bcE (k b : Bytes8) : Bytes8 := cipher k b

/-- `BC_D(k, b)`. -/
def bcD (k b : Bytes8) : Bytes8 := (cipher k).symm b

/-- `CRC8(s)`, open (D25; log entry 8). -/
opaque crc8 : List Byte → Byte

/-- `NV_MAGIC`, open (D24; log entry 9). -/
opaque nvMagic : Word

/-- `NV_FIELD1`, open (D24; log entry 9). -/
opaque nvField1 : Byte

/-- The ten bytes of `NV_FIELD2`, open (D24; log entry 9). -/
opaque nvField2At : Fin 10 → Byte

/-- `NV_FIELD2` as a byte sequence. -/
def nvField2 : List Byte := List.ofFn nvField2At

/-- How far `CFG_MAX` lies above its least value 4097, open (D14; log entry 10). The bound is R5's
`CFG_MAX + 24 < 2^32`. -/
opaque cfgMaxAbove : Fin 4294963175

/-- `CFG_MAX` (R5): every value with `4096 < CFG_MAX` and `CFG_MAX + 24 < 2^32`, and no other. Irreducible, so that no
tactic counts up to it; `cfgMax_lower` and `cfgMax_upper` in Laws/Ops.lean are the two bounds. -/
@[irreducible] def cfgMax : Nat := cfgMaxAbove.val + 4097

/-- `BUF_CAP` (R6). -/
def bufCap : Nat := max nvImage (cfgMax + cfgHdr)

/-- One row of the model table: a name of 1 to 16 ASCII bytes, and its magic (R5). -/
structure RegistryRow where
  name : List Byte
  magic : Word
  deriving DecidableEq, Repr

/-- `unknown` in ASCII (R102). -/
def unknownName : List Byte := [0x75, 0x6E, 0x6B, 0x6E, 0x6F, 0x77, 0x6E]

/-- `WNDR4500v2` in ASCII (R100). -/
def wndrName : List Byte := [0x57, 0x4E, 0x44, 0x52, 0x34, 0x35, 0x30, 0x30, 0x76, 0x32]

/-- The rows of `REGISTRY` that the source does not print, open (D22; log entry 11): a first ASCII character, the
characters after it, and a magic. -/
opaque moreRows : List ((BitVec 7 × List (BitVec 7)) × Word)

/-- An open row: at most 16 ASCII bytes, at least one. -/
def rowOf (r : (BitVec 7 × List (BitVec 7)) × Word) : RegistryRow :=
  { name := (r.1.1 :: r.1.2.take (nameMax - 1)).map (fun c => c.setWidth 8), magic := r.2 }

/-- `REGISTRY` (R5): the two mandatory rows, then the open ones (log entry 11 says why their order is no loss). -/
def registry : List RegistryRow :=
  [{ name := unknownName, magic := 0x00000000#32 }, { name := wndrName, magic := 0x62744915#32 }] ++
    moreRows.map rowOf

/-! ### Free values -/

/-- The free byte an unspecified buffer byte reads as (R19, R22, U1; log entry 3): the `n`-th such read gets
`freeByte n`. -/
opaque freeByte : Nat → Byte

end Sys2Proof.Config
end

