-- ==== Sys2Proof/Machine/Operands.lean ====
section
/-! DEFINITION. Byte sequences and the numbers read from them: slices, byte orders, cipher blocks, the name buffer
(spec/00_scope.md R7, R8; spec/20_memory.md R35; spec/30_encoding.md R62, R63). -/

namespace Sys2Proof.Machine

/-- `s[a .. a+n)` (R7). -/
def slice (s : List Byte) (a n : Nat) : List Byte := (s.drop a).take n

/-- `s[a .. a+len(v)) <- v` (R8, the assignments of R93, R111, R132). -/
def splice (s : List Byte) (a : Nat) (v : List Byte) : List Byte :=
  s.take a ++ v ++ s.drop (a + v.length)

/-- `s[i]`. Every use has `i < len(s)`, so the default is never read. -/
def byteAt (s : List Byte) (i : Nat) : Byte := s.getD i 0#8

/-- `be32(s[a .. a+4))` (R8). -/
def be32At (s : List Byte) (a : Nat) : Word :=
  byteAt s a ++ byteAt s (a + 1) ++ byteAt s (a + 2) ++ byteAt s (a + 3)

/-- `le32(s[a .. a+4))` (R8). -/
def le32At (s : List Byte) (a : Nat) : Word :=
  byteAt s (a + 3) ++ byteAt s (a + 2) ++ byteAt s (a + 1) ++ byteAt s a

/-- `le16` of two bytes, zero-extended to the checksum's 32-bit accumulator (R8, R90). -/
def le16 (lo hi : Byte) : Word := (hi ++ lo).setWidth 32

/-- `to_be32(v)` (R8). -/
def toBe32 (v : Word) : List Byte :=
  [v.extractLsb' 24 8, v.extractLsb' 16 8, v.extractLsb' 8 8, v.extractLsb' 0 8]

/-- `be64` of eight bytes (R8). -/
def be64 (k : Bytes8) : BitVec 64 :=
  k.b0 ++ k.b1 ++ k.b2 ++ k.b3 ++ k.b4 ++ k.b5 ++ k.b6 ++ k.b7

/-- `ceil4(n)` (R8). -/
def ceil4 (n : Nat) : Nat := (n + 3) / 4 * 4

/-- The 8-byte blocks of a byte sequence, in order (R63). A shorter rest is no block; the length test of R81 comes
first. -/
def toBlocks : List Byte → List Bytes8
  | b0 :: b1 :: b2 :: b3 :: b4 :: b5 :: b6 :: b7 :: rest => ⟨b0, b1, b2, b3, b4, b5, b6, b7⟩ :: toBlocks rest
  | _ => []

/-- The bytes of a sequence of blocks, block `i` at `8*i` (R63). -/
def ofBlocks (blocks : List Bytes8) : List Byte := blocks.flatMap Bytes8.toList

/-- `namebuf(s)` (R62): 16 bytes, NUL-padded, cut silently. -/
def nameBuf (s : List Byte) : List Byte :=
  (s.take Config.nameMax ++ List.replicate Config.nameMax 0#8).take Config.nameMax

end Sys2Proof.Machine
end

