-- ==== Sys2Proof/Machine/State.lean ====
section
/-! DEFINITION. The state of the block and of its host, the ways a step can stop, the error kinds, and the state after
reset (spec/10_state.md, spec/60_exceptions.md R150, spec/70_reset_and_hazards.md R170). -/

namespace Sys2Proof.Machine

/-- The two byte-addressed buffer spaces (R19, R30). -/
inductive Space where
  | ibuf
  | obuf
  deriving DecidableEq, Repr

/-- One line of a host script (R61). `CMD` and `LOAD` are pseudo-operations made of these
(`HostAction.cmd`, `HostAction.load` in Machine/HostAccess.lean). -/
inductive HostAction where
  /-- `RESET` (R170). -/
  | reset
  /-- `WR <REG>, <value>`; register 0 is `CMD`, whose write runs a command (R13). -/
  | wr (reg : Nat) (value : Word)
  /-- `RD <REG>`. -/
  | rd (reg : Nat)
  /-- `WB <space>:<offset>, <bytes>`. -/
  | wb (space : Space) (offset : Nat) (bytes : List Byte)
  /-- `RB <space>:<offset>, <count>`. -/
  | rb (space : Space) (offset : Nat) (count : Nat)
  /-- `MOVE`: the host copies `OBUF[0 .. OUT_LEN)` to `IBUF` and sets `IN_LEN`. -/
  | move
  deriving DecidableEq, Repr

/-- What one host read returned to the host. -/
inductive HostRead where
  | reg (number : Nat) (value : Word)
  | bytes (space : Space) (offset : Nat) (value : List Byte)
  deriving DecidableEq, Repr

/-- The error kinds (R150). -/
inductive ErrorKind where
  | invalidLength
  | checksumMismatch
  | badMagic
  | badCrc
  | lengthMismatch
  | tooLarge
  | missingOption
  /-- The external collaborator's kind; it has a code and the block never raises it (R152). -/
  | ioFailure
  | illegalCommand
  | shortInput
  deriving DecidableEq, Repr

/-- Why the machine stops. No command stops on every path. -/
inductive Fault where
  /-- Raised by a command whose input range `IBUF:0 .. IBUF:IN_LEN-1` holds a byte the host has not written since
  reset (R25, U2; log entry 4). Safe: the spec gives such a command an unspecified result. -/
  | unwrittenInput
  /-- Raised by a host access (`WB`, `RB`, `MOVE`) that reaches past offset `BUF_CAP - 1` (R19, R30; log entry 6).
  Safe: no such address exists. -/
  | bufferRange (space : Space) (offset : Nat) (count : Nat)
  deriving DecidableEq, Repr

/-- Why a step gives no meaning. -/
inductive Refusal where
  /-- Raised by an arm of `exec` for a command that has no meaning yet; no arm is such an arm. Safe. -/
  | notModelled (mnemonic : String)
  deriving DecidableEq, Repr

/-- A buffer: the bytes that hold a value, at strictly rising offsets. An offset not listed holds NO value (R22). -/
abbrev Mem := List Host.Cell

/-- The block (R10, R12, R19), and the host in front of it (R11, R61). -/
structure State where
  /-- `KeyState` (R10), hidden. -/
  keyState : Bytes8
  /-- Register 0, the last command word written (R13). -/
  cmd : Word
  /-- Register 1: `ERR` in bits 7:0, `LENW` in bit 8 (R14). -/
  status : Word
  /-- Register 2 (R15). -/
  inLen : Word
  /-- Register 3 (R15). -/
  outLen : Word
  /-- Register 4 (R16). -/
  argMagic : Word
  /-- Register 5 (R16). -/
  argVersion : Word
  /-- Register 6 (R16). -/
  result : Word
  /-- Register 7 (R16). -/
  hdrMagic : Word
  /-- Register 8 (R16). -/
  hdrLength : Word
  /-- Register 9 (R16). -/
  hdrCheck : Word
  /-- Register 10 (R16). -/
  hdrVersion : Word
  /-- The input buffer (R19). -/
  ibuf : Mem
  /-- The output buffer (R19). -/
  obuf : Mem
  /-- The host's pending actions, the next one first (R11, R61; the model's own field, log entry 1). -/
  script : List HostAction
  /-- What the host's reads returned, the latest first (the model's own field, log entry 2). -/
  seen : List HostRead
  /-- How many free bytes host reads have used (the model's own field, log entry 3). -/
  freeCount : Nat
  deriving DecidableEq, Repr

/-- The state right after reset (R22, R170): the seed, every register 0, no buffer byte holding a value; no host action
pending (log entry 1). -/
def State.reset : State where
  keyState := Config.ksSeed
  cmd := 0
  status := 0
  inLen := 0
  outLen := 0
  argMagic := 0
  argVersion := 0
  result := 0
  hdrMagic := 0
  hdrLength := 0
  hdrCheck := 0
  hdrVersion := 0
  ibuf := []
  obuf := []
  script := []
  seen := []
  freeCount := 0

end Sys2Proof.Machine
end

