-- ==== Sys2Proof/Machine/Flags.lean ====
section
/-! DEFINITION. The status register's values (spec/10_state.md R14, spec/60_exceptions.md R150) and the capacity test
(R153). The block has no other flags. -/

namespace Sys2Proof.Machine

/-- The code of an error kind in `STATUS.ERR` (R150). -/
def ErrorKind.code : ErrorKind → Byte
  | .invalidLength => 0x01#8
  | .checksumMismatch => 0x02#8
  | .badMagic => 0x03#8
  | .badCrc => 0x04#8
  | .lengthMismatch => 0x05#8
  | .tooLarge => 0x06#8
  | .missingOption => 0x07#8
  | .ioFailure => 0x08#8
  | .illegalCommand => 0x10#8
  | .shortInput => 0x11#8

/-- `STATUS` after an error: `ERR` = the code, `LENW` = 0 (R155). -/
def errorStatus (e : ErrorKind) : Word := e.code.setWidth 32

/-- `STATUS` after a success: `0x100 * warn` (R114, R135), and 0 for commands without a warning. -/
def okStatus (warn : Bool) : Word := if warn then 0x100#32 else 0#32

/-- `STATUS.ERR`, bits 7:0 (R14). -/
def State.err (s : State) : Byte := s.status.extractLsb' 0 8

/-- `STATUS.LENW`, bit 8 (R14). -/
def State.lenw (s : State) : Bool := s.status.getLsbD 8

/-- `n > BUF_CAP` (R153), where `BUF_CAP` is the larger of the two sizes of R6. -/
def overCapacity (n : Nat) : Bool :=
  decide (Config.nvImage < n) && decide (Config.cfgMax + Config.cfgHdr < n)

end Sys2Proof.Machine
end

