-- ==== Sys2Proof/Machine/Ops.lean ====
section
/-! DEFINITION. The named operations on buffers and registers: reading and writing a buffer, the host register file,
reading a command's input, ending a command with success, and `raise` (spec/10_state.md, spec/20_memory.md,
spec/60_exceptions.md R155). The block's only exceptional event is the synchronous error `raise` delivers into
`STATUS`; control goes nowhere and there is no return to model (R156). -/

namespace Sys2Proof.Machine

/-- The outcome of a command or of a host action. -/
abbrev Result := Host.Outcome State Fault Refusal

/-! ### Buffers (R19, R38) -/

/-- The byte at an offset, `none` where the buffer holds no value. -/
def Mem.read (m : Mem) (a : Nat) : Option Byte :=
  match m.dropWhile (fun c => decide (c.1 < a)) with
  | [] => none
  | c :: _ => if c.1 = a then some c.2 else none

/-- The bytes at `n` consecutive offsets from `a`, in one walk (`slots_eq_map_read` in Laws/Memory.lean: the same as
`n` single-byte reads, R38). -/
def Mem.slots : Mem → Nat → Nat → List (Option Byte)
  | _, _, 0 => []
  | m, a, n + 1 => m.read a :: Mem.slots (m.dropWhile (fun c => decide (c.1 < a))) (a + 1) n

/-- The bytes of a run of offsets, if every one of them holds a value. -/
def allWritten : List (Option Byte) → Option (List Byte)
  | [] => some []
  | none :: _ => none
  | some b :: rest => (allWritten rest).map (b :: ·)

/-- `MemRead(m:a, n)` (R8), `none` if a byte of the range holds no value (R25). -/
def Mem.bytes (m : Mem) (a n : Nat) : Option (List Byte) := allWritten (m.slots a n)

/-- The bytes `bs` at consecutive offsets from `a`. -/
def Mem.cells : Nat → List Byte → Mem
  | _, [] => []
  | a, b :: bs => (a, b) :: Mem.cells (a + 1) bs

/-- `MemWrite(m:a, len(bs), bs)` (R8). -/
def Mem.write (m : Mem) (a : Nat) (bs : List Byte) : Mem :=
  m.takeWhile (fun c => decide (c.1 < a)) ++ Mem.cells a bs ++
    m.dropWhile (fun c => decide (c.1 < a + bs.length))

/-- The canonical form of a buffer: strictly rising offsets. An unlisted offset reads as no value, so no listed entry
can equal it. -/
def Mem.wf : Mem → Bool
  | [] => true
  | [_] => true
  | c :: d :: rest => decide (c.1 < d.1) && Mem.wf (d :: rest)

/-- What a host reads from a run of offsets: the byte where there is one, the next free byte where there is none (U1;
log entry 3). Answers the bytes and the number of free bytes used so far. -/
def fillFree : Nat → List (Option Byte) → List Byte × Nat
  | c, [] => ([], c)
  | c, some b :: rest => (b :: (fillFree c rest).1, (fillFree c rest).2)
  | c, none :: rest => (Config.freeByte c :: (fillFree (c + 1) rest).1, (fillFree (c + 1) rest).2)

/-- The contents of a space. -/
def State.space (s : State) : Space → Mem
  | .ibuf => s.ibuf
  | .obuf => s.obuf

/-! ### The host register file (R12, R24) -/

/-- A host read of register `n`. Reserved numbers, 11 and above, read 0. -/
def State.readReg (s : State) (n : Nat) : Word :=
  match n with
  | 0 => s.cmd
  | 1 => s.status
  | 2 => s.inLen
  | 3 => s.outLen
  | 4 => s.argMagic
  | 5 => s.argVersion
  | 6 => s.result
  | 7 => s.hdrMagic
  | 8 => s.hdrLength
  | 9 => s.hdrCheck
  | 10 => s.hdrVersion
  | _ => 0#32

/-- A host write of register `n`: what it stores. Writes of read-only and of reserved numbers are ignored. That a write
of `CMD` also runs a command is `runCommand`'s (R13). -/
def State.writeReg (s : State) (n : Nat) (v : Word) : State :=
  match n with
  | 0 => { s with cmd := v }
  | 2 => { s with inLen := v }
  | 4 => { s with argMagic := v }
  | 5 => { s with argVersion := v }
  | _ => s

/-! ### A command's input and its end -/

/-- `MemRead(IBUF:0, x[IN_LEN])`, a fault if the host has not written every byte of it (R25; log entry 4). -/
def State.withInput (s : State) (k : List Byte → Result) : Result :=
  match s.ibuf.bytes 0 s.inLen.toNat with
  | some bs => k bs
  | none => .fault .unwrittenInput

/-- The end of a successful command: its output in `OBUF:0` onward, `OUT_LEN`, `STATUS`. The bytes of `OBUF` beyond
the output hold no value afterwards (R19; log entry 5). -/
def State.finish (s : State) (out : List Byte) (warn : Bool) : State :=
  { s with obuf := Mem.cells 0 out, outLen := BitVec.ofNat 32 out.length, status := okStatus warn }

/-- `raise E` (R155): `OUT_LEN <- 0`, `STATUS <- code(E)`, and no byte of `OBUF` defined (R19; log entry 5). What was
written before the raise stays. -/
def State.raise (s : State) (e : ErrorKind) : State :=
  { s with obuf := [], outLen := 0#32, status := errorStatus e }

end Sys2Proof.Machine
end

