-- ==== Sys2Proof/Machine/Keystream.lean ====
section
/-! DEFINITION. The key-stream generator: the key-stream step, `KS.RESEED` and `KS.NEXT` (spec/40_keystream.md). -/

namespace Sys2Proof.Machine

/-- The mutation half of `ks_next()` (R70): byte 0 plus 8; its wrap carries into byte 1; a wrap of byte 1 from that
carry carries into byte 2, and no further. -/
def nextKeyState (k : Bytes8) : Bytes8 :=
  let b0 := k.b0 + Config.ksStep
  if b0 < k.b0 then
    let b1 := k.b1 + 1#8
    if b1 < k.b1 then { k with b0 := b0, b1 := b1, b2 := k.b2 + 1#8 }
    else { k with b0 := b0, b1 := b1 }
  else { k with b0 := b0 }

/-- Byte `i` of the key of a mutated `KeyState` (R70): `(S >> (56 - 7*i))[7:0]`. -/
def keyByte (k : Bytes8) (i : Nat) : Byte := ((be64 k) >>> (56 - 7 * i)).setWidth 8

/-- The key derived from a mutated `KeyState` (R70). -/
def keyOf (k : Bytes8) : Bytes8 :=
  ⟨keyByte k 0, keyByte k 1, keyByte k 2, keyByte k 3, keyByte k 4, keyByte k 5, keyByte k 6, keyByte k 7⟩

/-- `KS.RESEED` (R71). -/
def execKsReseed (_fl : CmdFlags) (s : State) : Result :=
  .next ({ s with keyState := Config.ksSeed }.finish [] false)

/-- `KS.NEXT` (R72). -/
def execKsNext (_fl : CmdFlags) (s : State) : Result :=
  let ks := nextKeyState s.keyState
  .next ({ s with keyState := ks }.finish (keyOf ks).toList false)

end Sys2Proof.Machine
end

