-- ==== Sys2Proof/Machine/BlockCipher.lean ====
section
/-! DEFINITION. The block-cipher framing engine: `codec`, `BC.ENC` and `BC.DEC` (spec/41_block_cipher.md). -/

namespace Sys2Proof.Machine

/-- The loop of `codec` (R80): block by block, one key-stream step each, no chaining. `f` is `BC_E` or `BC_D`. -/
def codecBlocks (f : Bytes8 → Bytes8 → Bytes8) : Bytes8 → List Bytes8 → Bytes8 × List Bytes8
  | ks, [] => (ks, [])
  | ks, b :: rest =>
    let ks' := nextKeyState ks
    let r := codecBlocks f ks' rest
    (r.1, f (keyOf ks') b :: r.2)

/-- `codec(in, mode)` (R80) from a `KeyState`: the `KeyState` after the pass, and the output. -/
def codec (f : Bytes8 → Bytes8 → Bytes8) (ks : Bytes8) (input : List Byte) : Bytes8 × List Byte :=
  let r := codecBlocks f ks (toBlocks input)
  (r.1, ofBlocks r.2)

/-- A cipher pass over the whole input with no validation of what it holds (R82, R83, R113). -/
def cipherPass (f : Bytes8 → Bytes8 → Bytes8) (s : State) : Result :=
  if overCapacity s.inLen.toNat then .next (s.raise .tooLarge)
  else if s.inLen.toNat % 8 ≠ 0 then .next (s.raise .invalidLength)
  else s.withInput fun input =>
    let r := codec f s.keyState input
    .next ({ s with keyState := r.1 }.finish r.2 false)

/-- `BC.ENC` (R82). -/
def execBcEnc (_fl : CmdFlags) (s : State) : Result := cipherPass Config.bcE s

/-- `BC.DEC` (R83). -/
def execBcDec (_fl : CmdFlags) (s : State) : Result := cipherPass Config.bcD s

end Sys2Proof.Machine
end

