-- ==== Sys2Proof/Machine/Checksum.lean ====
section
/-! DEFINITION. The one's-complement checksum engine: `CS.CALC`, `CS.VERIFY`, `CS.APPLY` (spec/42_checksum.md). -/

namespace Sys2Proof.Machine

/-- The loop of R90 over the even-length prefix: little-endian 16-bit words into a 32-bit accumulator that wraps. -/
def sumWords : Word → List Byte → Word
  | acc, lo :: hi :: rest => sumWords (acc + le16 lo hi) rest
  | acc, _ => acc

/-- What the accumulator holds before the loop (R90): the final single byte of an odd-length buffer, else 0. -/
def oddByte (bs : List Byte) : Word :=
  if bs.length % 2 = 1 then (byteAt bs (bs.length - 1)).setWidth 32 else 0#32

/-- `sum[15:0] + sum[31:16]` (R90). -/
def fold16 (sum : Word) : Word := (sum.extractLsb' 0 16).setWidth 32 + (sum.extractLsb' 16 16).setWidth 32

/-- The byte swap of R90. -/
def swap16 (c : BitVec 16) : BitVec 16 := c.extractLsb' 0 8 ++ c.extractLsb' 8 8

/-- `checksum(B)` (R90), with the sentinel for the empty buffer (R96). -/
def checksum (bs : List Byte) : Word :=
  if bs.isEmpty then Config.csumEmpty
  else
    let sum := fold16 (fold16 (sumWords (oddByte bs) bs))
    (swap16 (~~~(sum.extractLsb' 0 16))).setWidth 32

/-- `verify(B)` (R92). -/
def verify (bs : List Byte) : Bool := checksum bs == 0#32

/-- What `apply(B)` stores at offset 8 (R93): the checksum of `B` with its field zeroed, big-endian in four bytes. -/
def checkField (bs : List Byte) : List Byte := toBe32 (checksum (splice bs 8 [0#8, 0#8, 0#8, 0#8]))

/-- `apply(B)` (R93), as the changed byte sequence; an empty `B` is left alone (R96). -/
def applyChecksum (bs : List Byte) : List Byte :=
  if bs.isEmpty then bs else splice bs 8 (checkField bs)

/-- `CS.CALC` (R91). -/
def execCsCalc (_fl : CmdFlags) (s : State) : Result :=
  if overCapacity s.inLen.toNat then .next (s.raise .tooLarge)
  else s.withInput fun input => .next ({ s with result := checksum input }.finish [] false)

/-- `CS.VERIFY` (R92): a false result is a result, not an error. -/
def execCsVerify (_fl : CmdFlags) (s : State) : Result :=
  if overCapacity s.inLen.toNat then .next (s.raise .tooLarge)
  else s.withInput fun input =>
    .next ({ s with result := if verify input then 1#32 else 0#32 }.finish [] false)

/-- `CS.APPLY` (R93): the one command that writes `IBUF` (R43). -/
def execCsApply (_fl : CmdFlags) (s : State) : Result :=
  if overCapacity s.inLen.toNat then .next (s.raise .tooLarge)
  else if 1 ≤ s.inLen.toNat ∧ s.inLen.toNat ≤ 11 then .next (s.raise .shortInput)
  else s.withInput fun input =>
    if input.isEmpty then .next (s.finish [] false)
    else .next ({ s with ibuf := s.ibuf.write 8 (checkField input) }.finish [] false)

end Sys2Proof.Machine
end

