-- ==== Sys2Proof/Machine/Configuration.lean ====
section
/-! DEFINITION. The configuration header codec and routines: `CFG.DECRYPT`, `CFG.EXTRACT`, `CFG.WRAP`
(spec/44_config_routines.md). -/

namespace Sys2Proof.Machine

/-- `cfg_magic(B)` (R56). -/
def cfgMagic (p : List Byte) : Word := be32At p 0

/-- `cfg_length(B)` (R56). -/
def cfgLength (p : List Byte) : Word := be32At p 4

/-- `cfg_check(B)` (R56). -/
def cfgCheck (p : List Byte) : Word := be32At p 8

/-- `cfg_version(B)` (R56). -/
def cfgVersion (p : List Byte) : Word := be32At p 12

/-- `cfg_build(payload, magic, version)` (R111). -/
def cfgBuild (payload : List Byte) (magic version : Word) : List Byte :=
  let b := List.replicate Config.cfgHdr 0#8 ++ payload
  let b := splice b 4 (toBe32 (BitVec.ofNat 32 (payload.length + Config.cfgHdr)))
  let b := splice b 0 (toBe32 magic)
  let b := splice b 12 (toBe32 version)
  applyChecksum b

/-- The header step of `CFG.EXTRACT` (R110, R114): the parsed fields, or zeros when there is no complete header. -/
def State.putCfgHeader (s : State) (p : List Byte) : State :=
  if Config.cfgHdr ≤ p.length then
    { s with hdrMagic := cfgMagic p, hdrLength := cfgLength p, hdrCheck := cfgCheck p, hdrVersion := cfgVersion p }
  else { s with hdrMagic := 0#32, hdrLength := 0#32, hdrCheck := 0#32, hdrVersion := 0#32 }

/-- The length step of `CFG.EXTRACT` (R116) for a decrypted buffer: the payload size and the warning, `none` for
`LengthMismatch`. The subtraction wraps at 32 bits. -/
def cfgLengthStep (maxSize : Nat) (force : Bool) (p : List Byte) : Option (Nat × Bool) :=
  let n := p.length
  let psz := if Config.cfgHdr ≤ n then (cfgLength p - 24#32).toNat else 0
  if Config.cfgHdr ≤ n ∧ psz ≤ maxSize ∧ psz = n - Config.cfgHdr then some (psz, false)
  else if force then some (min psz (min maxSize (n - Config.cfgHdr)), true)
  else none

/-- `CFG.DECRYPT` (R113): as `BC.DEC`, with no validation and no header parse. -/
def execCfgDecrypt (_fl : CmdFlags) (s : State) : Result := cipherPass Config.bcD s

/-- `CFG.EXTRACT` (R114 to R117). -/
def execCfgExtract (fl : CmdFlags) (s : State) : Result :=
  if overCapacity s.inLen.toNat then .next (s.raise .tooLarge)
  else if s.inLen.toNat % 8 ≠ 0 then .next (s.raise .invalidLength)
  else s.withInput fun input =>
    let r := codec Config.bcD s.keyState input
    let p := r.2
    let s1 := { s with keyState := r.1 }.putCfgHeader p
    if fl.f = false ∧ verify p = false then .next (s1.raise .checksumMismatch)
    else
      match cfgLengthStep Config.cfgMax fl.f p with
      | none => .next (s1.raise .lengthMismatch)
      | some (psz, warn) => .next (s1.finish (slice p Config.cfgHdr psz) warn)

/-- `CFG.WRAP` (R118). -/
def execCfgWrap (fl : CmdFlags) (s : State) : Result :=
  if overCapacity s.inLen.toNat then .next (s.raise .tooLarge)
  else if fl.mv = false ∨ fl.vv = false then .next (s.raise .missingOption)
  else if Config.cfgMax < s.inLen.toNat then .next (s.raise .tooLarge)
  else s.withInput fun payload =>
    let b := cfgBuild payload s.argMagic s.argVersion
    if b.length % 8 ≠ 0 then .next (s.raise .invalidLength)
    else
      let r := codec Config.bcE s.keyState b
      .next ({ s with keyState := r.1 }.finish r.2 false)

end Sys2Proof.Machine
end

