-- ==== Sys2Proof/Machine/Nvram.lean ====
section
/-! DEFINITION. The NVRAM header codec with CRC-8 and the NVRAM routines: `NV.CRC8`, `NV.EXTRACT`, `NV.WRAP`
(spec/45_nvram.md). The open constants and the open CRC-8 are arguments of the pure functions, so that the functions
can be tried on the example instances of spec/95_test_vectors.md; the commands give them the block's own. -/

namespace Sys2Proof.Machine

/-- `nv_magic(M)` (R58). -/
def nvMagicOf (m : List Byte) : Word := be32At m 0

/-- `nv_length(M)` (R58). -/
def nvLengthOf (m : List Byte) : Word := be32At m 4

/-- `nv_crc(M)` (R58). -/
def nvCrcOf (m : List Byte) : Byte := byteAt m 8

/-- `nv_crc_calc(M, L, N)` (R131): the CRC-8 of `M[9 .. min(L, N))`. -/
def nvCrcCalc (crc8 : List Byte → Byte) (m : List Byte) (l n : Nat) : Byte := crc8 (slice m 9 (min l n - 9))

/-- The image of `nv_build(data)` up to its declared length, before the CRC-8 is stored (R132). -/
def nvFields (magic : Word) (field1 : Byte) (field2 : List Byte) (data : List Byte) : List Byte :=
  let total := Config.nvHdr + data.length
  let padded := ceil4 total
  let m := List.replicate Config.nvHdr 0#8 ++ data ++ List.replicate (padded - total) Config.nvPad
  let m := splice m 0 (toBe32 magic)
  let m := splice m 4 (toBe32 (BitVec.ofNat 32 padded))
  let m := splice m 9 [field1]
  splice m 10 field2

/-- `nv_build(data)` (R132). -/
def nvBuild (crc8 : List Byte → Byte) (magic : Word) (field1 : Byte) (field2 : List Byte) (data : List Byte) :
    List Byte :=
  let padded := ceil4 (Config.nvHdr + data.length)
  let m := nvFields magic field1 field2 data
  let m := splice m 8 [nvCrcCalc crc8 m padded padded]
  m ++ List.replicate (Config.nvImage - padded) Config.nvFill

/-- The loop of `unescape` (R136); `prev` is the previous output byte, if any. -/
def unescapeFrom : Option Byte → List Byte → List Byte
  | _, [] => []
  | prev, b :: rest =>
    if b = 0x00#8 then
      if prev = some Config.newline then unescapeFrom prev rest
      else Config.newline :: unescapeFrom (some Config.newline) rest
    else b :: unescapeFrom (some b) rest

/-- `unescape(d)` (R136): at the start there is no previous output byte. -/
def unescape (d : List Byte) : List Byte := unescapeFrom none d

/-- `escape(t)` (R138). -/
def escape (t : List Byte) : List Byte := t.map fun b => if b = Config.newline then 0x00#8 else b

/-- The length step of `NV.EXTRACT` (R137) for a declared length `l` in an input of `n` bytes: the data length and the
warning, `none` for `TooLarge`. The subtraction wraps at 32 bits. -/
def nvLengthStep (force : Bool) (l : Word) (n : Nat) : Option (Nat × Bool) :=
  let dlen := (l - 20#32).toNat
  let maxd := min Config.nvDataMax (n - Config.nvHdr)
  if dlen ≤ maxd then some (dlen, false)
  else if force then some (maxd, true)
  else none

/-- `NV.CRC8` (R133). -/
def execNvCrc8 (_fl : CmdFlags) (s : State) : Result :=
  if overCapacity s.inLen.toNat then .next (s.raise .tooLarge)
  else if s.inLen.toNat < Config.nvHdr then .next (s.raise .shortInput)
  else s.withInput fun m =>
    let crc := nvCrcCalc Config.crc8 m (nvLengthOf m).toNat s.inLen.toNat
    .next ({ s with result := crc.setWidth 32 }.finish [] false)

/-- `NV.EXTRACT` (R135 to R137). -/
def execNvExtract (fl : CmdFlags) (s : State) : Result :=
  if overCapacity s.inLen.toNat then .next (s.raise .tooLarge)
  else if s.inLen.toNat < Config.nvHdr then .next (s.raise .shortInput)
  else s.withInput fun m =>
    let s1 := { s with hdrMagic := nvMagicOf m, hdrLength := nvLengthOf m, hdrCheck := (nvCrcOf m).setWidth 32 }
    if fl.f = false ∧ nvMagicOf m ≠ Config.nvMagic then .next (s1.raise .badMagic)
    else if fl.f = false ∧ nvCrcCalc Config.crc8 m (nvLengthOf m).toNat s.inLen.toNat ≠ nvCrcOf m then
      .next (s1.raise .badCrc)
    else
      match nvLengthStep fl.f (nvLengthOf m) s.inLen.toNat with
      | none => .next (s1.raise .tooLarge)
      | some (dlen, warn) => .next (s1.finish (unescape (slice m Config.nvHdr dlen)) warn)

/-- `NV.WRAP` (R139). -/
def execNvWrap (_fl : CmdFlags) (s : State) : Result :=
  if overCapacity s.inLen.toNat then .next (s.raise .tooLarge)
  else if Config.nvDataMax < s.inLen.toNat then .next (s.raise .tooLarge)
  else s.withInput fun t =>
    .next (s.finish
      (nvBuild Config.crc8 Config.nvMagic Config.nvField1 Config.nvField2 (escape t)) false)

end Sys2Proof.Machine
end

