-- ==== Sys2Proof/Machine/Registry.lean ====
section
/-! DEFINITION. The magic/model registry: `MG.DERIVE` and `MG.NAME` (spec/43_magic_registry.md). -/

namespace Sys2Proof.Machine

/-- `derive_magic(s)` (R100): the exclusive or of the name buffer's four little-endian words. -/
def deriveMagic (s : List Byte) : Word :=
  le32At (nameBuf s) 0 ^^^ le32At (nameBuf s) 4 ^^^ le32At (nameBuf s) 8 ^^^ le32At (nameBuf s) 12

/-- `model_name(m)` (R102) in a table: the first row with that magic, `unknown` where there is none. -/
def modelName (rows : List Config.RegistryRow) (m : Word) : List Byte :=
  match rows.find? (fun r => r.magic == m) with
  | some r => r.name
  | none => Config.unknownName

/-- `MG.DERIVE` (R101). -/
def execMgDerive (_fl : CmdFlags) (s : State) : Result :=
  if overCapacity s.inLen.toNat then .next (s.raise .tooLarge)
  else s.withInput fun input => .next ({ s with result := deriveMagic input }.finish [] false)

/-- `MG.NAME` (R103). -/
def execMgName (_fl : CmdFlags) (s : State) : Result :=
  .next (s.finish (modelName Config.registry s.argMagic) false)

end Sys2Proof.Machine
end

