-- ==== Sys2Proof/Machine/Dispatch.lean ====
section
/-! DEFINITION. One arm per command: which meaning runs it (spec/30_encoding.md R51). -/

namespace Sys2Proof.Machine

def exec (i : Instr) (s : State) : Host.Outcome State Fault Refusal :=
  match i with
  | .ksReseed fl => Sys2Proof.Machine.execKsReseed fl s
  | .ksNext fl => Sys2Proof.Machine.execKsNext fl s
  | .bcEnc fl => Sys2Proof.Machine.execBcEnc fl s
  | .bcDec fl => Sys2Proof.Machine.execBcDec fl s
  | .csCalc fl => Sys2Proof.Machine.execCsCalc fl s
  | .csVerify fl => Sys2Proof.Machine.execCsVerify fl s
  | .csApply fl => Sys2Proof.Machine.execCsApply fl s
  | .mgDerive fl => Sys2Proof.Machine.execMgDerive fl s
  | .mgName fl => Sys2Proof.Machine.execMgName fl s
  | .cfgDecrypt fl => Sys2Proof.Machine.execCfgDecrypt fl s
  | .cfgExtract fl => Sys2Proof.Machine.execCfgExtract fl s
  | .cfgWrap fl => Sys2Proof.Machine.execCfgWrap fl s
  | .nvCrc8 fl => Sys2Proof.Machine.execNvCrc8 fl s
  | .nvExtract fl => Sys2Proof.Machine.execNvExtract fl s
  | .nvWrap fl => Sys2Proof.Machine.execNvWrap fl s

end Sys2Proof.Machine
end

