-- ==== Sys2Proof/Machine/HostAccess.lean ====
section
/-! DEFINITION. The host's actions on the block: the write of `CMD` that decodes and runs a command (spec/10_state.md
R13), and every other line of the host script notation (spec/30_encoding.md R61). -/

namespace Sys2Proof.Machine

/-- A host write of `w` to `CMD` (R13): store the word, then run the command it encodes, or raise `IllegalCommand`
(R54, R151). -/
def runCommand (w : Word) (s : State) : Result :=
  let s1 := s.writeReg 0 w
  match decode w with
  | .ok i => exec i s1
  | .error _ => .next (s1.raise .illegalCommand)

/-- `WR <REG>, <value>` (R12, R13). -/
def hostWriteReg (n : Nat) (v : Word) (s : State) : Result :=
  if n = 0 then runCommand v s else .next (s.writeReg n v)

/-- `RD <REG>`: the host has the value; nothing of the block changes (R38). -/
def hostReadReg (n : Nat) (s : State) : State := { s with seen := .reg n (s.readReg n) :: s.seen }

/-- `WB <space>:<a>, <bytes>`: `IBUF` takes them, `OBUF` ignores them (R19). -/
def hostWriteBytes (sp : Space) (a : Nat) (bs : List Byte) (s : State) : Result :=
  if overCapacity (a + bs.length) then .fault (.bufferRange sp a bs.length)
  else
    match sp with
    | .ibuf => .next { s with ibuf := s.ibuf.write a bs }
    | .obuf => .next s

/-- What the host gets from `n` bytes at `a` of a space, and the free bytes used so far (R19, U1; log entry 3). -/
def State.hostBytes (s : State) (sp : Space) (a n : Nat) : List Byte × Nat :=
  fillFree s.freeCount ((s.space sp).slots a n)

/-- `RB <space>:<a>, <n>`: the host has the bytes; nothing of the block changes (R38). -/
def hostReadBytes (sp : Space) (a n : Nat) (s : State) : Result :=
  if overCapacity (a + n) then .fault (.bufferRange sp a n)
  else
    let r := s.hostBytes sp a n
    .next { s with seen := .bytes sp a r.1 :: s.seen, freeCount := r.2 }

/-- `MOVE` (R61): `RD OUT_LEN`, `RB OBUF:0`, `WB IBUF:0`, `WR IN_LEN`, in one step of the model (log entry 12). -/
def hostMove (s : State) : Result :=
  let n := s.outLen.toNat
  let s1 := hostReadReg 3 s
  if overCapacity n then .fault (.bufferRange .obuf 0 n)
  else
    let r := s1.hostBytes .obuf 0 n
    .next { s1 with seen := .bytes .obuf 0 r.1 :: s1.seen, freeCount := r.2,
                    ibuf := s1.ibuf.write 0 r.1, inLen := s1.outLen }

/-- `RESET` (R170, R171): the block is as after reset; the host's own fields stay (log entry 1). -/
def hostReset (s : State) : State :=
  { State.reset with script := s.script, seen := s.seen, freeCount := s.freeCount }

/-- One host action (R61). -/
def hostAct (a : HostAction) (s : State) : Result :=
  match a with
  | .reset => .next (hostReset s)
  | .wr n v => hostWriteReg n v s
  | .rd n => .next (hostReadReg n s)
  | .wb sp off bs => hostWriteBytes sp off bs s
  | .rb sp off n => hostReadBytes sp off n s
  | .move => hostMove s

/-- `CMD <MNEMONIC>, flags` (R61): the write of the command's word to `CMD`. -/
def HostAction.cmd (i : Instr) : HostAction := .wr 0 (encode i)

/-- `LOAD <bytes>` (R61): two actions. -/
def HostAction.load (bs : List Byte) : List HostAction :=
  [.wb .ibuf 0 bs, .wr 2 (BitVec.ofNat 32 bs.length)]

end Sys2Proof.Machine
end

