-- ==== Sys2Proof/Machine/Step.lean ====
section
/-! DEFINITION. One step of the machine: the host's next action (spec/10_state.md R11, R17). The block fetches nothing;
what it runs is what the host writes to `CMD`. -/

namespace Sys2Proof.Machine

/-- The host's next action; where none is pending the block does nothing (R170, R178). -/
def step (s : State) : Host.Outcome State Fault Refusal :=
  match s.script with
  | [] => .next s
  | a :: rest => hostAct a { s with script := rest }

/-- The host's next action is the write of the word `w` to `CMD` (log entry 1). -/
def State.withFetchWord (s : State) (_nbits w : Nat) : State :=
  { s with script := .wr 0 (BitVec.ofNat 32 w) :: s.script }

end Sys2Proof.Machine
end

