-- ==== Sys2Proof/Safety.lean ====
section
/-! DEFINITION. The terms claims are stated in: a command's input and output read byte by byte, the frame of a command,
the invariant of the machine, and plain-number forms of the checksum and of the length rules, written from the spec's
rules and not from the meanings. -/

namespace Sys2Proof.Machine

/-! ### Input, output, failure -/

/-- `MemRead(IBUF:0, x[IN_LEN])` is `input`, and the host has written every byte of it (R15, R25). -/
def State.HasInput (s : State) (input : List Byte) : Prop :=
  s.inLen.toNat = input.length ∧ ∀ a, a < input.length → s.ibuf.read a = input[a]?

/-- The buffer output is `out` (R15, R19): `OUT_LEN` is its length and the bytes of `OBUF` below `OUT_LEN` are it. -/
def State.HasOutput (s : State) (out : List Byte) : Prop :=
  s.outLen.toNat = out.length ∧ ∀ a, a < out.length → s.obuf.read a = out[a]?

/-- Command `i` ends in state `s` with the error code `code`, and changes nothing but `STATUS`, `OUT_LEN` and the
unspecified contents of `OBUF` (R155 for an error raised before any other effect). -/
def FailsWith (i : Instr) (s : State) (code : Word) : Prop :=
  ∃ t, exec i s = .next t ∧ t = { s with obuf := t.obuf, outLen := 0#32, status := code }

/-! ### The invariant -/

/-- Both buffers are in canonical form and inside their capacity, and `OBUF` holds exactly the `OUT_LEN` bytes of the
last output (R19, R33). -/
def State.BuffersOk (s : State) : Prop :=
  s.ibuf.wf = true ∧ s.obuf.wf = true ∧ (∀ c ∈ s.ibuf, c.1 < Config.bufCap) ∧
    s.outLen.toNat ≤ Config.bufCap ∧ ∀ a, (s.obuf.read a).isSome = decide (a < s.outLen.toNat)

/-- Bytes 3 to 7 of `KeyState` are the seed's and byte 0 is 6 modulo 8 (R73 (d), (e)). -/
def State.KeyStateOk (s : State) : Prop :=
  s.keyState.b3 = 0x72#8 ∧ s.keyState.b4 = 0x42#8 ∧ s.keyState.b5 = 0x61#8 ∧ s.keyState.b6 = 0x6B#8 ∧
    s.keyState.b7 = 0x00#8 ∧ s.keyState.b0.toNat % 8 = 6

/-- The codes the block produces (R150): 0 to 7, 0x10 and 0x11; never `IoFailure`, 0x08. -/
def producedCodes : List Nat := [0, 1, 2, 3, 4, 5, 6, 7, 0x10, 0x11]

/-- `STATUS` reads 0 in bits 31:9, its `ERR` is a code the block produces, `LENW` comes only with success, and a failed
command has no output (R14, R150, R155). -/
def State.StatusOk (s : State) : Prop :=
  s.status.toNat < 512 ∧ s.status.toNat % 256 ∈ producedCodes ∧
    (s.status.toNat % 256 ≠ 0 → s.status.toNat < 256 ∧ s.outLen = 0#32)

/-- What holds of the block in every state a run reaches. -/
def State.Inv (s : State) : Prop := s.BuffersOk ∧ s.KeyStateOk ∧ s.StatusOk

/-! ### The cipher and the image, block by block and byte by byte -/

/-- Block `j` of a byte sequence: bytes `8j` to `8j+7` (R63). -/
def blockAt (s : List Byte) (j : Nat) : Bytes8 :=
  ⟨byteAt s (8 * j), byteAt s (8 * j + 1), byteAt s (8 * j + 2), byteAt s (8 * j + 3), byteAt s (8 * j + 4),
    byteAt s (8 * j + 5), byteAt s (8 * j + 6), byteAt s (8 * j + 7)⟩

/-- `out` is the cipher pass of `input` from `KeyState` `ks` in the direction `f` (R80): same length, block `j`
processed with the key of step `j + 1`. -/
def IsCipherOf (f : Bytes8 → Bytes8 → Bytes8) (ks : Bytes8) (input out : List Byte) : Prop :=
  out.length = input.length ∧
    ∀ j, j < input.length / 8 → blockAt out j = f (keyOf (nextKeyState^[j + 1] ks)) (blockAt input j)

/-- What a command that is one cipher pass over its input does, errors first (R82, R83, R113, R157): `TooLarge`, then
`InvalidLength`, then the pass, which advances the key stream one step per block and changes nothing else. -/
def RunsCipherPass (i : Instr) (f : Bytes8 → Bytes8 → Bytes8) : Prop :=
  ∀ s : State,
    if Config.bufCap < s.inLen.toNat then FailsWith i s 0x06#32
    else if s.inLen.toNat % 8 ≠ 0 then FailsWith i s 0x01#32
    else ∀ input, s.HasInput input →
      ∃ t out, exec i s = .next t ∧ t.HasOutput out ∧ IsCipherOf f s.keyState input out ∧
        t.keyState = nextKeyState^[input.length / 8] s.keyState ∧
        t = { s with keyState := t.keyState, obuf := t.obuf, outLen := s.inLen, status := 0#32 }

/-- The four `HDR` registers hold the header of the plain configuration image `p`, or 0 where `p` is shorter than a
header (R110, R114). -/
def State.HasCfgHeader (s : State) (p : List Byte) : Prop :=
  if 24 ≤ p.length then
    s.hdrMagic = be32At p 0 ∧ s.hdrLength = be32At p 4 ∧ s.hdrCheck = be32At p 8 ∧ s.hdrVersion = be32At p 12
  else s.hdrMagic = 0#32 ∧ s.hdrLength = 0#32 ∧ s.hdrCheck = 0#32 ∧ s.hdrVersion = 0#32

/-- `HDR_MAGIC`, `HDR_LENGTH` and `HDR_CHECK` hold the header of the NVRAM image `m` (R135). -/
def State.HasNvHeader (s : State) (m : List Byte) : Prop :=
  s.hdrMagic = be32At m 0 ∧ s.hdrLength = be32At m 4 ∧ s.hdrCheck = (byteAt m 8).setWidth 32

/-- A 32-bit length field less a header size, wrapping (R116, R137), as a number. -/
def wrapSub (l : Word) (header : Nat) : Nat := (l.toNat + 2 ^ 32 - header) % 2 ^ 32

/-! ### The checksum in plain numbers (R90) -/

/-- The sum of the little-endian 16-bit words, an odd final byte counting as its own value. -/
def leWordSum : List Byte → Nat
  | lo :: hi :: rest => lo.toNat + 256 * hi.toNat + leWordSum rest
  | [b] => b.toNat
  | [] => 0

/-- One fold of the 32-bit accumulator. -/
def foldNat (n : Nat) : Nat := n % 65536 + n / 65536

/-- `checksum(B)` of R90 and R96 as a number. -/
def checksumNat (bs : List Byte) : Nat :=
  if bs = [] then 0xFFFFFFFF
  else
    let c := 65535 - foldNat (foldNat (leWordSum bs % 2 ^ 32))
    c % 256 * 256 + c / 256

/-- The sum of the big-endian 16-bit words, an odd final byte padded on the right with 0x00 (R94). -/
def beWordSum : List Byte → Nat
  | hi :: lo :: rest => 256 * hi.toNat + lo.toNat + beWordSum rest
  | [b] => 256 * b.toNat
  | [] => 0

/-- A sum with end-around carry into 16 bits: 0 only for 0, else the residue modulo 65535 in 1 to 65535. -/
def endAround (n : Nat) : Nat := if n = 0 then 0 else (n - 1) % 65535 + 1

/-- A byte sequence with its checksum field, bytes 8 to 11, zeroed (R93). -/
def zeroField (bs : List Byte) : List Byte := (((bs.set 8 0#8).set 9 0#8).set 10 0#8).set 11 0#8

end Sys2Proof.Machine
end

