-- ==== Sys2Proof/Certificates/Slice0/Obligations.lean ====
section
/-! DEFINITION. The statements for the provers. Each docstring names the rules of spec/ it formalises. In a statement of
the form `t = { s with … }` the fields named are the only ones that may differ; a field that stands as `t.field` may
take any value the rest of the statement leaves it. -/

open Sys2Proof Sys2Proof.Machine

/-! ### Encoding -/

/-- R50: decoding is total; a word is illegal exactly by its reserved bits or its operation code, and else it is the
command of its operation code with the flags of its bits 8, 9 and 10. -/
def Obligations.DecodingIsTotal : Prop :=
  ∀ w : Word,
    if w.toNat / 2048 ≠ 0 ∨ w.toNat % 256 = 0 ∨ 16 ≤ w.toNat % 256 then ∃ e, decode w = .error e
    else ∃ i, decode w = .ok i ∧ i.opc.toNat = w.toNat % 256 ∧
      i.flags = { f := w.toNat.testBit 8, mv := w.toNat.testBit 9, vv := w.toNat.testBit 10 }

/-- R50, R51, R61: the decoder reads a command from a word exactly if the word is that command's encoding; no bit is
dropped, every flag at every value. -/
def Obligations.DecodeInvertsEncode : Prop :=
  ∀ (w : Word) (i : Instr), decode w = .ok i ↔ encode i = w

/-- R51, R61: words written out from the tables, one of each family. -/
def Obligations.SpecWordsDecode : Prop :=
  decode 0x00000001#32 = .ok (.ksReseed ⟨false, false, false⟩) ∧
  decode 0x00000702#32 = .ok (.ksNext ⟨true, true, true⟩) ∧
  decode 0x00000003#32 = .ok (.bcEnc ⟨false, false, false⟩) ∧
  decode 0x00000007#32 = .ok (.csApply ⟨false, false, false⟩) ∧
  decode 0x00000009#32 = .ok (.mgName ⟨false, false, false⟩) ∧
  decode 0x0000010B#32 = .ok (.cfgExtract ⟨true, false, false⟩) ∧
  decode 0x0000060C#32 = .ok (.cfgWrap ⟨false, true, true⟩) ∧
  decode 0x0000010E#32 = .ok (.nvExtract ⟨true, false, false⟩) ∧
  decode 0x0000080B#32 = .error .reservedBits ∧
  decode 0x00000010#32 = .error (.reservedOpcode 0x10#8)

/-- R54, R151: a write of an illegal word to `CMD` raises `IllegalCommand` whatever else the state holds, and changes
`CMD`, `STATUS` and `OUT_LEN` alone (the contents of `OBUF` are unspecified after it, R19; log entry 5). -/
def Obligations.IllegalWordRaisesIllegalCommand : Prop :=
  ∀ (s : State) (w : Word) (rest : List HostAction), s.script = .wr 0 w :: rest →
    (w.toNat % 256 = 0 ∨ 0x10 ≤ w.toNat % 256 ∨ w.toNat / 2048 ≠ 0) →
    ∃ t, step s = .next t ∧
      t = { s with script := rest, cmd := w, status := 0x10#32, outLen := 0#32, obuf := t.obuf }

/-- R13: a host write of a word that encodes a command stores the word in `CMD` and runs that command. The host's script
is the model's (log entry 1). -/
def Obligations.StepRunsDecodedCommand : Prop :=
  ∀ (s : State) (w : Word) (rest : List HostAction) (i : Instr),
    s.script = .wr 0 w :: rest → decode w = .ok i →
    step s = exec i { s with script := rest, cmd := w }

/-! ### Key stream -/

/-- R70, R72: `KS.NEXT` adds 8 to byte 0 of `KeyState`, carries its wrap into byte 1 and that byte's wrap into byte 2
and no further, and returns the eight windows of the stepped state; nothing else changes. -/
def Obligations.KsNextReturnsSteppedKey : Prop :=
  ∀ (fl : CmdFlags) (s : State), ∃ t, exec (.ksNext fl) s = .next t ∧
    t = { s with keyState := t.keyState, obuf := t.obuf, outLen := 8#32, status := 0#32 } ∧
    t.keyState.b0.toNat = (s.keyState.b0.toNat + 8) % 256 ∧
    t.keyState.b1.toNat =
      (if 0xF8 ≤ s.keyState.b0.toNat then (s.keyState.b1.toNat + 1) % 256 else s.keyState.b1.toNat) ∧
    t.keyState.b2.toNat =
      (if 0xF8 ≤ s.keyState.b0.toNat ∧ s.keyState.b1.toNat = 0xFF then (s.keyState.b2.toNat + 1) % 256
        else s.keyState.b2.toNat) ∧
    t.keyState = { s.keyState with b0 := t.keyState.b0, b1 := t.keyState.b1, b2 := t.keyState.b2 } ∧
    t.HasOutput
      [t.keyState.b0,
        (t.keyState.b0 <<< 7) ||| (t.keyState.b1 >>> 1),
        (t.keyState.b1 <<< 6) ||| (t.keyState.b2 >>> 2),
        (t.keyState.b2 <<< 5) ||| (t.keyState.b3 >>> 3),
        (t.keyState.b3 <<< 4) ||| (t.keyState.b4 >>> 4),
        (t.keyState.b4 <<< 3) ||| (t.keyState.b5 >>> 5),
        (t.keyState.b5 <<< 2) ||| (t.keyState.b6 >>> 6),
        (t.keyState.b6 <<< 1) ||| (t.keyState.b7 >>> 7)]

/-- R71: `KS.RESEED` puts the seed back, whatever `KeyState` was, and changes nothing else; the next `KS.NEXT` gives the
key of step 1. -/
def Obligations.KsReseedRewindsKeyStream : Prop :=
  ∀ (fl fl' : CmdFlags) (s : State), ∃ t u, exec (.ksReseed fl) s = .next t ∧
    t = { s with keyState := ⟨0x4E, 0x74, 0x67, 0x72, 0x42, 0x61, 0x6B, 0x00⟩, obuf := t.obuf,
                 outLen := 0#32, status := 0#32 } ∧
    exec (.ksNext fl') t = .next u ∧
    u.keyState = ⟨0x56, 0x74, 0x67, 0x72, 0x42, 0x61, 0x6B, 0x00⟩ ∧
    u.HasOutput [0x56, 0x3A, 0x19, 0xEE, 0x24, 0x13, 0x85, 0xD6]

/-- R73 (f): from the seed, the key-stream states come round after 2097152 steps and not before. -/
def Obligations.KeyStreamPeriod : Prop :=
  ∀ n : Nat, nextKeyState^[n] ⟨0x4E, 0x74, 0x67, 0x72, 0x42, 0x61, 0x6B, 0x00⟩ =
      ⟨0x4E, 0x74, 0x67, 0x72, 0x42, 0x61, 0x6B, 0x00⟩ ↔ 2097152 ∣ n

/-! ### Block cipher -/

/-- R80 to R83, R113: `BC.ENC`, `BC.DEC` and `CFG.DECRYPT` are one cipher pass, block `j` under the key of step `j + 1`. -/
def Obligations.CipherCommandsRunOnePass : Prop :=
  ∀ fl : CmdFlags, RunsCipherPass (.bcEnc fl) Config.bcE ∧ RunsCipherPass (.bcDec fl) Config.bcD ∧
    RunsCipherPass (.cfgDecrypt fl) Config.bcD

/-- R84: what `BC.ENC` makes from a `KeyState`, `BC.DEC` and `CFG.DECRYPT` started from the same `KeyState` turn back,
for every cipher the open parameter allows. -/
def Obligations.DecryptionInvertsEncryption : Prop :=
  ∀ (fl : CmdFlags) (s : State) (p : List Byte), s.HasInput p → p.length % 8 = 0 → p.length ≤ Config.bufCap →
    ∃ t c, exec (.bcEnc fl) s = .next t ∧ t.HasOutput c ∧
      ∀ (fl' : CmdFlags) (u : State), u.keyState = s.keyState → u.HasInput c →
        (∃ v, exec (.bcDec fl') u = .next v ∧ v.status = 0#32 ∧ v.HasOutput p) ∧
        (∃ v, exec (.cfgDecrypt fl') u = .next v ∧ v.status = 0#32 ∧ v.HasOutput p)

/-! ### Checksum -/

/-- R90, R91: `CS.CALC` puts the folded, complemented, byte-swapped sum of the input's little-endian words in `RESULT`. -/
def Obligations.CsCalcFoldsWordSum : Prop :=
  ∀ (fl : CmdFlags) (s : State),
    if Config.bufCap < s.inLen.toNat then FailsWith (.csCalc fl) s 0x06#32
    else ∀ input, s.HasInput input →
      ∃ t, exec (.csCalc fl) s = .next t ∧ t.result.toNat = checksumNat input ∧
        t = { s with result := t.result, obuf := t.obuf, outLen := 0#32, status := 0#32 }

/-- R92: `CS.VERIFY` answers 1 exactly if the checksum of the input as it stands is 0; a false answer is no error. -/
def Obligations.CsVerifyTestsZeroChecksum : Prop :=
  ∀ (fl : CmdFlags) (s : State),
    if Config.bufCap < s.inLen.toNat then FailsWith (.csVerify fl) s 0x06#32
    else ∀ input, s.HasInput input →
      ∃ t, exec (.csVerify fl) s = .next t ∧
        t = { s with result := if checksumNat input = 0 then 1#32 else 0#32, obuf := t.obuf,
                     outLen := 0#32, status := 0#32 }

/-- R94: up to 131074 bytes the checksum is the complement of the end-around-carry sum of the big-endian words. -/
def Obligations.ChecksumIsInternetChecksum : Prop :=
  ∀ (fl : CmdFlags) (s : State) (input : List Byte), s.HasInput input → input ≠ [] → input.length ≤ 131074 →
    input.length ≤ Config.bufCap →
    ∃ t, exec (.csCalc fl) s = .next t ∧ t.result.toNat = 65535 - endAround (beWordSum input)

/-- R96: on the empty buffer `CS.CALC` gives the sentinel, `CS.VERIFY` gives 0 and `CS.APPLY` succeeds and changes
nothing but `STATUS`, `OUT_LEN` and the unspecified contents of `OBUF`. -/
def Obligations.EmptyBufferChecksum : Prop :=
  ∀ (fl : CmdFlags) (s : State), s.inLen = 0#32 →
    (∃ t, exec (.csCalc fl) s = .next t ∧ t.result = 0xFFFFFFFF#32) ∧
    (∃ t, exec (.csVerify fl) s = .next t ∧ t.result = 0#32) ∧
    (∃ t, exec (.csApply fl) s = .next t ∧ t = { s with obuf := t.obuf, outLen := 0#32, status := 0#32 })

/-- R93, R43: `CS.APPLY` stores `00 00` and the two bytes of the checksum of the input with its field zeroed at
`IBUF:8` to `IBUF:11`, and no other byte; an empty input is left alone and one of 1 to 11 bytes is `ShortInput`. -/
def Obligations.CsApplyStoresChecksum : Prop :=
  ∀ (fl : CmdFlags) (s : State),
    if Config.bufCap < s.inLen.toNat then FailsWith (.csApply fl) s 0x06#32
    else if 1 ≤ s.inLen.toNat ∧ s.inLen.toNat ≤ 11 then FailsWith (.csApply fl) s 0x11#32
    else ∀ input, s.HasInput input →
      ∃ t, exec (.csApply fl) s = .next t ∧
        t = { s with ibuf := t.ibuf, obuf := t.obuf, outLen := 0#32, status := 0#32 } ∧
        (∀ a, a < 8 ∨ 12 ≤ a → t.ibuf.read a = s.ibuf.read a) ∧
        if input = [] then t.ibuf = s.ibuf
        else
          t.ibuf.read 8 = some 0#8 ∧ t.ibuf.read 9 = some 0#8 ∧
          t.ibuf.read 10 = some (BitVec.ofNat 8 (checksumNat (zeroField input) / 256)) ∧
          t.ibuf.read 11 = some (BitVec.ofNat 8 (checksumNat (zeroField input) % 256))

/-- R95 (b): after `CS.APPLY` on 12 bytes or more, `CS.VERIFY` answers 1 and `CS.CALC` answers 0, at every length,
accumulator wrap or not. -/
def Obligations.ApplyThenVerifyHolds : Prop :=
  ∀ (fl : CmdFlags) (s : State) (input : List Byte), s.HasInput input → 12 ≤ input.length →
    input.length ≤ Config.bufCap →
    ∃ t, exec (.csApply fl) s = .next t ∧ t.status = 0#32 ∧
      (∃ u, exec (.csVerify fl) t = .next u ∧ u.result = 1#32) ∧
      (∃ u, exec (.csCalc fl) t = .next u ∧ u.result = 0#32)

/-- R93, R38: a second `CS.APPLY` changes nothing more. -/
def Obligations.CsApplyIdempotent : Prop :=
  ∀ (fl : CmdFlags) (s : State) (input : List Byte), s.HasInput input → 12 ≤ input.length →
    input.length ≤ Config.bufCap →
    ∃ t u, exec (.csApply fl) s = .next t ∧ exec (.csApply fl) t = .next u ∧ ∀ a, u.ibuf.read a = t.ibuf.read a

/-! ### Registry -/

/-- R100, R101: byte `j` of `RESULT` is the exclusive or of bytes `j`, `j+4`, `j+8`, `j+12` of the name buffer: the
name's bytes below 16, and 0 beyond its end. -/
def Obligations.MgDeriveFoldsNameBuffer : Prop :=
  ∀ (fl : CmdFlags) (s : State),
    if Config.bufCap < s.inLen.toNat then FailsWith (.mgDerive fl) s 0x06#32
    else ∀ input, s.HasInput input →
      ∃ t, exec (.mgDerive fl) s = .next t ∧
        t = { s with result := t.result, obuf := t.obuf, outLen := 0#32, status := 0#32 } ∧
        ∀ j, j < 4 → t.result.extractLsb' (8 * j) 8 =
          input.getD j 0#8 ^^^ input.getD (j + 4) 0#8 ^^^ input.getD (j + 8) 0#8 ^^^ input.getD (j + 12) 0#8

/-- R102, R103: `MG.NAME` gives the name of the first row with that magic, `unknown` where there is none: 1 to 16 bytes,
and nothing else changes. -/
def Obligations.MgNameFindsFirstRow : Prop :=
  ∀ (fl : CmdFlags) (s : State), ∃ t nm, exec (.mgName fl) s = .next t ∧ t.HasOutput nm ∧
    t = { s with obuf := t.obuf, outLen := t.outLen, status := 0#32 } ∧ 1 ≤ nm.length ∧ nm.length ≤ 16 ∧
    ((∃ before row after, Config.registry = before ++ row :: after ∧ row.magic = s.argMagic ∧
        (∀ q ∈ before, q.magic ≠ s.argMagic) ∧ nm = row.name) ∨
      ((∀ q ∈ Config.registry, q.magic ≠ s.argMagic) ∧ nm = [0x75, 0x6E, 0x6B, 0x6E, 0x6F, 0x77, 0x6E]))

/-- R102: the two mandatory rows. Rests on log entry 11 (the mandatory rows are found before the open ones). -/
def Obligations.MgNameKnowsMandatoryModels : Prop :=
  ∀ (fl : CmdFlags) (s : State),
    (s.argMagic = 0x62744915#32 → ∃ t, exec (.mgName fl) s = .next t ∧
      t.HasOutput [0x57, 0x4E, 0x44, 0x52, 0x34, 0x35, 0x30, 0x30, 0x76, 0x32]) ∧
    (s.argMagic = 0#32 → ∃ t, exec (.mgName fl) s = .next t ∧
      t.HasOutput [0x75, 0x6E, 0x6B, 0x6E, 0x6F, 0x77, 0x6E])

/-! ### Configuration routines -/

/-- R111, R118: `CFG.WRAP` encrypts, block by block, the image whose header holds the magic, the total length, the
checksum of the image with its field zeroed, and the version, with zeros at 16 to 23 and the payload from 24; its four
errors come first, in their order. -/
def Obligations.CfgWrapEncryptsImage : Prop :=
  ∀ (fl : CmdFlags) (s : State),
    if Config.bufCap < s.inLen.toNat then FailsWith (.cfgWrap fl) s 0x06#32
    else if fl.mv = false ∨ fl.vv = false then FailsWith (.cfgWrap fl) s 0x07#32
    else if Config.cfgMax < s.inLen.toNat then FailsWith (.cfgWrap fl) s 0x06#32
    else ∀ payload, s.HasInput payload →
      if payload.length % 8 ≠ 0 then FailsWith (.cfgWrap fl) s 0x01#32
      else ∃ t b out, exec (.cfgWrap fl) s = .next t ∧ t.HasOutput out ∧
        IsCipherOf Config.bcE s.keyState b out ∧ b.length = payload.length + 24 ∧
        be32At b 0 = s.argMagic ∧ (be32At b 4).toNat = payload.length + 24 ∧
        (be32At b 8).toNat = checksumNat (zeroField b) ∧ be32At b 12 = s.argVersion ∧
        (∀ j, 16 ≤ j → j < 24 → byteAt b j = 0#8) ∧ b.drop 24 = payload ∧
        t.keyState = nextKeyState^[(payload.length + 24) / 8] s.keyState ∧
        t = { s with keyState := t.keyState, obuf := t.obuf, outLen := t.outLen, status := 0#32 }

/-- R114 to R117: the header is parsed and the key stream advanced first, whatever comes of the checks. With `F = 0` a
wrong checksum of the whole plain image is `ChecksumMismatch` and a declared length other than the buffer's, or too large,
is `LengthMismatch`; with `F = 1` the checksum is not looked at and a failed length check gives what is declared, allowed
and present, with `LENW`. Else the payload is returned. -/
def Obligations.CfgExtractReturnsPayload : Prop :=
  ∀ (fl : CmdFlags) (s : State),
    if Config.bufCap < s.inLen.toNat then FailsWith (.cfgExtract fl) s 0x06#32
    else if s.inLen.toNat % 8 ≠ 0 then FailsWith (.cfgExtract fl) s 0x01#32
    else ∀ input p, s.HasInput input → IsCipherOf Config.bcD s.keyState input p →
      ∃ t, exec (.cfgExtract fl) s = .next t ∧ t.HasCfgHeader p ∧
        t.keyState = nextKeyState^[input.length / 8] s.keyState ∧
        t = { s with keyState := t.keyState, hdrMagic := t.hdrMagic, hdrLength := t.hdrLength,
                     hdrCheck := t.hdrCheck, hdrVersion := t.hdrVersion, obuf := t.obuf,
                     outLen := t.outLen, status := t.status } ∧
        if fl.f = false ∧ checksumNat p ≠ 0 then t.status = 0x02#32 ∧ t.outLen = 0#32
        else if 24 ≤ p.length ∧ (be32At p 4).toNat = p.length ∧ p.length ≤ Config.cfgMax + 24 then
          t.status = 0#32 ∧ t.HasOutput (p.drop 24)
        else if fl.f = false then t.status = 0x05#32 ∧ t.outLen = 0#32
        else
          t.status = 0x100#32 ∧
            t.HasOutput ((p.drop 24).take (min (wrapSub (be32At p 4) 24) Config.cfgMax))

/-- R119: `CFG.WRAP` and then `CFG.EXTRACT` from the same `KeyState` (the seed, after `KS.RESEED`) give the payload, the
magic and the version back, with force or without. -/
def Obligations.CfgRoundTrip : Prop :=
  ∀ (fl : CmdFlags) (s : State) (p : List Byte), s.HasInput p → p.length % 8 = 0 → p.length ≤ Config.cfgMax →
    fl.mv = true → fl.vv = true →
    ∃ t c, exec (.cfgWrap fl) s = .next t ∧ t.status = 0#32 ∧ t.HasOutput c ∧
      ∀ (fl' : CmdFlags) (u : State), u.keyState = s.keyState → u.HasInput c →
        ∃ v, exec (.cfgExtract fl') u = .next v ∧ v.status = 0#32 ∧ v.HasOutput p ∧
          v.hdrMagic = s.argMagic ∧ v.hdrVersion = s.argVersion ∧ v.hdrLength.toNat = p.length + 24 ∧
          v.keyState = t.keyState

/-! ### NVRAM routines -/

/-- R131, R133: `NV.CRC8` gives the CRC-8 of the bytes from offset 9 to the declared length or the end of the input. -/
def Obligations.NvCrc8CoversDeclaredImage : Prop :=
  ∀ (fl : CmdFlags) (s : State),
    if Config.bufCap < s.inLen.toNat then FailsWith (.nvCrc8 fl) s 0x06#32
    else if s.inLen.toNat < 20 then FailsWith (.nvCrc8 fl) s 0x11#32
    else ∀ m, s.HasInput m →
      ∃ t, exec (.nvCrc8 fl) s = .next t ∧
        t = { s with result := (Config.crc8 ((m.take (be32At m 4).toNat).drop 9)).setWidth 32, obuf := t.obuf,
                     outLen := 0#32, status := 0#32 }

/-- R133: the stored CRC byte never influences the result of `NV.CRC8`. -/
def Obligations.NvCrc8IgnoresStoredByte : Prop :=
  ∀ (fl : CmdFlags) (s u : State) (m : List Byte) (b : Byte), s.HasInput m → u.HasInput (m.set 8 b) →
    20 ≤ m.length → m.length ≤ Config.bufCap →
    ∃ t v, exec (.nvCrc8 fl) s = .next t ∧ exec (.nvCrc8 fl) u = .next v ∧ t.result = v.result

/-- R135, R137: the header is parsed in every case. With `F = 0` a wrong magic is `BadMagic`, then a wrong CRC-8 is
`BadCrc`, then a declared data length that does not fit is `TooLarge`; with `F = 1` magic and CRC-8 are not compared and
such a length gives the bytes present, at most 65516, with `LENW`. Else the unescaped data region is returned. -/
def Obligations.NvExtractReturnsText : Prop :=
  ∀ (fl : CmdFlags) (s : State),
    if Config.bufCap < s.inLen.toNat then FailsWith (.nvExtract fl) s 0x06#32
    else if s.inLen.toNat < 20 then FailsWith (.nvExtract fl) s 0x11#32
    else ∀ m, s.HasInput m →
      ∃ t, exec (.nvExtract fl) s = .next t ∧ t.HasNvHeader m ∧
        t = { s with hdrMagic := t.hdrMagic, hdrLength := t.hdrLength, hdrCheck := t.hdrCheck,
                     obuf := t.obuf, outLen := t.outLen, status := t.status } ∧
        if fl.f = false ∧ be32At m 0 ≠ Config.nvMagic then t.status = 0x03#32 ∧ t.outLen = 0#32
        else if fl.f = false ∧ Config.crc8 ((m.take (be32At m 4).toNat).drop 9) ≠ byteAt m 8 then
          t.status = 0x04#32 ∧ t.outLen = 0#32
        else if 20 ≤ (be32At m 4).toNat ∧ (be32At m 4).toNat ≤ 65536 ∧ (be32At m 4).toNat ≤ m.length then
          t.status = 0#32 ∧ t.HasOutput (unescape ((m.take (be32At m 4).toNat).drop 20))
        else if fl.f = false then t.status = 0x06#32 ∧ t.outLen = 0#32
        else t.status = 0x100#32 ∧ t.HasOutput (unescape ((m.drop 20).take 65516))

/-- R136: what `unescape` makes of one more byte, by the last byte of the output so far. -/
def Obligations.UnescapeReadsOnlyLastOutput : Prop :=
  unescape [] = [] ∧
  ∀ (d : List Byte) (b : Byte), unescape (d ++ [b]) =
    if b ≠ 0x00#8 then unescape d ++ [b]
    else if (unescape d).getLast? = some 0x0A#8 then unescape d
    else unescape d ++ [0x0A#8]

/-- R132, R138, R139: every byte of the 65536-byte image `NV.WRAP` builds. -/
def Obligations.NvWrapBuildsImage : Prop :=
  ∀ (fl : CmdFlags) (s : State),
    if Config.bufCap < s.inLen.toNat ∨ 65516 < s.inLen.toNat then FailsWith (.nvWrap fl) s 0x06#32
    else ∀ text, s.HasInput text →
      ∃ t m, exec (.nvWrap fl) s = .next t ∧ t.HasOutput m ∧ m.length = 65536 ∧
        t = { s with obuf := t.obuf, outLen := 0x10000#32, status := 0#32 } ∧
        be32At m 0 = Config.nvMagic ∧ (be32At m 4).toNat = (20 + text.length + 3) / 4 * 4 ∧
        byteAt m 8 = Config.crc8 ((m.take ((20 + text.length + 3) / 4 * 4)).drop 9) ∧
        byteAt m 9 = Config.nvField1 ∧ (∀ j : Fin 10, byteAt m (10 + j) = Config.nvField2At j) ∧
        (∀ j, j < text.length → byteAt m (20 + j) = if byteAt text j = 0x0A#8 then 0x00#8 else byteAt text j) ∧
        (∀ j, 20 + text.length ≤ j → j < (20 + text.length + 3) / 4 * 4 → byteAt m j = 0x00#8) ∧
        (∀ j, (20 + text.length + 3) / 4 * 4 ≤ j → j < 65536 → byteAt m j = 0xFF#8)

/-- R140: `NV.EXTRACT` accepts what `NV.WRAP` made, with force or without; it gives the text back exactly if the text has
no NUL, no empty line, and ends with a newline or needs no pad; where only the last fails it gives one newline more. -/
def Obligations.NvRoundTrip : Prop :=
  ∀ (fl : CmdFlags) (s : State) (text : List Byte), s.HasInput text → text.length ≤ 65516 →
    ∃ t m, exec (.nvWrap fl) s = .next t ∧ t.HasOutput m ∧
      ∀ (fl' : CmdFlags) (u : State), u.HasInput m →
        ∃ v out, exec (.nvExtract fl') u = .next v ∧ v.status = 0#32 ∧ v.HasOutput out ∧
          v.hdrMagic = Config.nvMagic ∧ v.hdrLength.toNat = (20 + text.length + 3) / 4 * 4 ∧
          (out = text ↔
            (0x00#8 ∉ text ∧ ¬ [0x0A#8, 0x0A#8] <:+: text ∧
              ((20 + text.length) % 4 = 0 ∨ text.getLast? = some 0x0A#8))) ∧
          (0x00#8 ∉ text → ¬ [0x0A#8, 0x0A#8] <:+: text →
            ¬ ((20 + text.length) % 4 = 0 ∨ text.getLast? = some 0x0A#8) → out = text ++ [0x0A#8])

/-! ### The whole machine -/

/-- R22, R33, R73, R14: the invariant holds after reset. -/
def Obligations.ResetMeetsInvariant : Prop := State.reset.Inv

/-- R19, R33, R73 (d), R73 (e), R14, R150, R155: every step keeps the invariant. That `OBUF` holds a value
exactly below `OUT_LEN` is the model's reading of R19 (log entries 5 and 16). -/
def Obligations.StepKeepsInvariant : Prop := ∀ s t : State, s.Inv → step s = .next t → t.Inv

/-- R177, R172, R25: a command completes unless it reads an `IBUF` byte below `IN_LEN` that the host has not written; the
fault then is the model's choice among R25's two treatments (log entry 4). -/
def Obligations.CommandsCompleteOnWrittenInput : Prop :=
  ∀ (i : Instr) (s : State), (∃ t, exec i s = .next t) ∨
    (exec i s = .fault .unwrittenInput ∧ ∃ a, a < s.inLen.toNat ∧ s.ibuf.read a = none)

/-- R43, R19: only a successful `CS.APPLY` of 12 bytes or more changes `IBUF`, and it changes bytes 8 to 11 alone. -/
def Obligations.OnlyCsApplyWritesIbuf : Prop :=
  ∀ (i : Instr) (s t : State), exec i s = .next t →
    (t.ibuf ≠ s.ibuf → i.opc = 0x07#8 ∧ 12 ≤ s.inLen.toNat ∧ t.status = 0#32) ∧
    ∀ a, a < 8 ∨ 12 ≤ a → t.ibuf.read a = s.ibuf.read a

/-- R10: `KeyState` is written by `KS.RESEED` and by the commands that step the key stream, which only step it. -/
def Obligations.KeyStateChangesOnlyByItsCommands : Prop :=
  ∀ (i : Instr) (s t : State), exec i s = .next t →
    (i.opc.toNat ∉ [0x01, 0x02, 0x03, 0x04, 0x0A, 0x0B, 0x0C] → t.keyState = s.keyState) ∧
    (i.opc ≠ 0x01#8 → ∃ n, t.keyState = nextKeyState^[n] s.keyState)

/-- R12, R16: which commands write which register: no command writes `CMD`, `IN_LEN`, `ARG_MAGIC` or `ARG_VERSION`;
`RESULT` and the `HDR` registers only by the commands of the table. -/
def Obligations.RegistersWrittenByTheirCommandsOnly : Prop :=
  ∀ (i : Instr) (s t : State), exec i s = .next t →
    t.cmd = s.cmd ∧ t.inLen = s.inLen ∧ t.argMagic = s.argMagic ∧ t.argVersion = s.argVersion ∧
    (i.opc.toNat ∉ [0x05, 0x06, 0x08, 0x0D] → t.result = s.result) ∧
    (i.opc.toNat ∉ [0x0B, 0x0E] →
      t.hdrMagic = s.hdrMagic ∧ t.hdrLength = s.hdrLength ∧ t.hdrCheck = s.hdrCheck) ∧
    (i.opc ≠ 0x0B#8 → t.hdrVersion = s.hdrVersion) ∧
    t.script = s.script ∧ t.seen = s.seen ∧ t.freeCount = s.freeCount

/-- R14, R150, R155: after any command `STATUS` holds a code the block produces; an error leaves no output, no warning,
and `RESULT` and `IBUF` as they were. -/
def Obligations.ErrorsLeaveNoOutput : Prop :=
  ∀ (i : Instr) (s t : State), exec i s = .next t →
    t.StatusOk ∧ (t.status.toNat % 256 ≠ 0 → t.result = s.result ∧ t.ibuf = s.ibuf)

/-- R51: a flag that a command does not read changes nothing: `F` is read by `CFG.EXTRACT` and `NV.EXTRACT` alone, `MV` and
`VV` by `CFG.WRAP` alone. -/
def Obligations.UnreadFlagsAreIgnored : Prop :=
  ∀ (i j : Instr) (s : State), i.opc = j.opc →
    (i.opc = 0x0B#8 ∨ i.opc = 0x0E#8 → i.flags.f = j.flags.f) →
    (i.opc = 0x0C#8 → i.flags.mv = j.flags.mv ∧ i.flags.vv = j.flags.vv) → exec i s = exec j s

/-- R53, R14, R18, R30: no command reads `STATUS`, `OUT_LEN`, `RESULT` or `OBUF`: what it makes of the rest of the state
does not depend on them. That all of `OBUF` after a command is independent of the `OBUF` before it is the model's reading
of R19, which leaves the bytes from `OUT_LEN` on any value, the old ones among them (log entry 5). -/
def Obligations.CommandsIgnoreOldOutput : Prop :=
  ∀ (i : Instr) (s t : State) (status outLen result : Word) (obuf : Mem), exec i s = .next t →
    exec i { s with status := status, outLen := outLen, result := result, obuf := obuf } =
      .next { t with result := if i.opc.toNat ∈ [0x05, 0x06, 0x08, 0x0D] ∧ t.status = 0#32 then t.result else result }

/-- R30, R31: no command reads `IBUF` at or beyond `IN_LEN`: two states that agree on the bytes below `IN_LEN` and on all
else end alike. -/
def Obligations.InputBeyondLengthIsNotRead : Prop :=
  ∀ (i : Instr) (s t : State) (m : Mem), (∀ a, a < s.inLen.toNat → m.read a = s.ibuf.read a) →
    exec i s = .next t →
    ∃ u, exec i { s with ibuf := m } = .next u ∧ u = { t with ibuf := u.ibuf } ∧
      ∀ a, a < s.inLen.toNat → u.ibuf.read a = t.ibuf.read a

/-! ### The host's actions -/

/-- R170, R22: `RESET` puts the seed in `KeyState`, 0 in every register, and leaves no buffer byte with a value. That
the host's own fields stay is the model's choice (log entries 1 and 2). -/
def Obligations.ResetClearsTheBlock : Prop :=
  ∀ (s : State) (rest : List HostAction), s.script = .reset :: rest →
    ∃ t, step s = .next t ∧ t.keyState = ⟨0x4E, 0x74, 0x67, 0x72, 0x42, 0x61, 0x6B, 0x00⟩ ∧
      (∀ n, t.readReg n = 0#32) ∧ (∀ a, t.ibuf.read a = none ∧ t.obuf.read a = none) ∧
      t.script = rest ∧ t.seen = s.seen

/-- R12, R24: a host write of a register other than `CMD` is seen by later reads if the register is writable and ignored
if it is read-only or reserved; reserved numbers read 0.
The script and the record of reads are the model's (log entry 1). -/
def Obligations.HostRegisterWrites : Prop :=
  ∀ (s : State) (n : Nat) (v : Word) (rest : List HostAction), s.script = .wr n v :: rest → n ≠ 0 →
    ∃ t, step s = .next t ∧
      (∀ k, t.readReg k = if k = n ∧ (n = 2 ∨ n = 4 ∨ n = 5) then v else s.readReg k) ∧
      (∀ k, 11 ≤ k → t.readReg k = 0#32) ∧
      t = { s with script := rest, inLen := t.inLen, argMagic := t.argMagic, argVersion := t.argVersion }

/-- R61, R40: `LOAD` makes its bytes the next command's input; the bytes of `IBUF` beyond them stay.
The script and the record of reads are the model's (log entry 1). -/
def Obligations.LoadSetsInput : Prop :=
  ∀ (s : State) (bs : List Byte) (rest : List HostAction), s.script = HostAction.load bs ++ rest →
    bs.length ≤ Config.bufCap →
    ∃ t u, step s = .next t ∧ step t = .next u ∧ u.HasInput bs ∧
      (∀ a, bs.length ≤ a → u.ibuf.read a = s.ibuf.read a) ∧
      u = { s with script := rest, ibuf := u.ibuf, inLen := u.inLen }

/-- R61: `MOVE` makes the last command's output the next command's input: the host reads `OUT_LEN` and the output bytes,
writes them to `IBUF` and sets `IN_LEN`.
The script and the record of reads are the model's (log entries 1, 2 and 12). -/
def Obligations.MoveCopiesOutputToInput : Prop :=
  ∀ (s : State) (out : List Byte) (rest : List HostAction), s.script = .move :: rest → s.HasOutput out →
    out.length ≤ Config.bufCap →
    ∃ t, step s = .next t ∧ t.HasInput out ∧ (∀ a, out.length ≤ a → t.ibuf.read a = s.ibuf.read a) ∧
      t = { s with script := rest, ibuf := t.ibuf, inLen := s.outLen,
                   seen := .bytes .obuf 0 out :: .reg 3 s.outLen :: s.seen }

/-- R38, R61: a host read of bytes of the output gives those bytes, and changes nothing of the block.
The script and the record of reads are the model's (log entries 1 and 2). -/
def Obligations.ReadBytesReturnsOutput : Prop :=
  ∀ (s : State) (out : List Byte) (a n : Nat) (rest : List HostAction), s.script = .rb .obuf a n :: rest →
    s.HasOutput out → a + n ≤ out.length → out.length ≤ Config.bufCap →
    ∃ t, step s = .next t ∧
      t = { s with script := rest, seen := .bytes .obuf a ((out.drop a).take n) :: s.seen }
end

