-- ==== Sys2Proof/Laws/Memory.lean ====
section
/-! SUPPORT. Laws of the buffer operations: a read after a write, a write leaves the other offsets alone, reading a run
is reading its bytes, and every operation keeps the canonical form. -/

namespace Sys2Proof.Machine

/-! ### dropWhile and takeWhile on an offset bound -/

theorem dropWhile_dropWhile_lt (m : Mem) (a b : Nat) (h : a ≤ b) :
    (m.dropWhile (fun c => decide (c.1 < a))).dropWhile (fun c => decide (c.1 < b)) =
      m.dropWhile (fun c => decide (c.1 < b)) := by
  induction m with
  | nil => rfl
  | cons c m ih =>
    by_cases hc : c.1 < a
    · have hb : c.1 < b := by omega
      simp [hc, hb, ih]
    · simp [List.dropWhile_cons, hc]

/-- Dropping the cells below a bound changes no read at or above it. -/
theorem read_dropWhile (m : Mem) (a b : Nat) (h : a ≤ b) :
    Mem.read (m.dropWhile (fun c => decide (c.1 < a))) b = m.read b := by
  unfold Mem.read
  rw [dropWhile_dropWhile_lt m a b h]

theorem dropWhile_append_all (m n : Mem) (b : Nat) (h : ∀ c ∈ m, c.1 < b) :
    (m ++ n).dropWhile (fun c => decide (c.1 < b)) = n.dropWhile (fun c => decide (c.1 < b)) := by
  induction m with
  | nil => rfl
  | cons c m ih =>
    have hc : c.1 < b := h c (by simp)
    simp [hc, ih (fun d hd => h d (by simp [hd]))]

/-- Cells below the offset in front change no read. -/
theorem read_append_below (m n : Mem) (b : Nat) (h : ∀ c ∈ m, c.1 < b) : Mem.read (m ++ n) b = Mem.read n b := by
  unfold Mem.read
  rw [dropWhile_append_all m n b h]

theorem mem_takeWhile_lt (m : Mem) (a : Nat) : ∀ c ∈ m.takeWhile (fun c => decide (c.1 < a)), c.1 < a := by
  intro c hc
  simpa using List.mem_takeWhile_imp hc

/-! ### Cells -/

@[simp] theorem read_nil (a : Nat) : Mem.read [] a = none := rfl

theorem read_cons (c : Host.Cell) (m : Mem) (a : Nat) :
    Mem.read (c :: m) a = if c.1 < a then Mem.read m a else if c.1 = a then some c.2 else none := by
  unfold Mem.read
  by_cases h : c.1 < a
  · simp [h]
  · simp [h]

@[simp] theorem length_cells (a : Nat) (bs : List Byte) : (Mem.cells a bs).length = bs.length := by
  induction bs generalizing a with
  | nil => rfl
  | cons b bs ih => simp [Mem.cells, ih]

theorem mem_cells (a : Nat) (bs : List Byte) : ∀ c ∈ Mem.cells a bs, a ≤ c.1 ∧ c.1 < a + bs.length := by
  induction bs generalizing a with
  | nil => simp [Mem.cells]
  | cons b bs ih =>
    intro c hc
    simp only [Mem.cells, List.mem_cons] at hc
    rcases hc with rfl | hc
    · simp
    · have := ih (a + 1) c hc
      simp only [List.length_cons]
      omega

/-- A run of cells, followed by anything: a read inside the run gives its byte. -/
theorem read_cells_append (a : Nat) (bs : List Byte) (n : Mem) (x : Nat) (h1 : a ≤ x) (h2 : x < a + bs.length) :
    Mem.read (Mem.cells a bs ++ n) x = bs[x - a]? := by
  induction bs generalizing a with
  | nil => simp at h2; omega
  | cons b bs ih =>
    simp only [Mem.cells, List.cons_append, read_cons]
    by_cases h : a = x
    · subst h; simp
    · have hlt : a < x := by omega
      simp only [List.length_cons] at h2
      rw [if_pos hlt, ih (a + 1) (by omega) (by omega), show x - a = (x - (a + 1)) + 1 by omega]
      simp

/-- A buffer that is one run of cells from offset 0. -/
theorem read_cells (bs : List Byte) (x : Nat) : Mem.read (Mem.cells 0 bs) x = bs[x]? := by
  by_cases h : x < bs.length
  · simpa using read_cells_append 0 bs [] x (by omega) (by omega)
  · have h1 : Mem.read (Mem.cells 0 bs ++ []) x = Mem.read [] x :=
      read_append_below _ _ _ fun c hc => by have := mem_cells 0 bs c hc; omega
    simp only [List.append_nil] at h1
    rw [h1, read_nil]
    exact (List.getElem?_eq_none (by omega)).symm

/-! ### Writing -/

/-- A read inside the written run gives the byte written. -/
theorem read_write_inside (m : Mem) (a : Nat) (bs : List Byte) (x : Nat) (h1 : a ≤ x) (h2 : x < a + bs.length) :
    (m.write a bs).read x = bs[x - a]? := by
  unfold Mem.write
  rw [List.append_assoc, read_append_below _ _ _ fun c hc => by have := mem_takeWhile_lt m a c hc; omega]
  exact read_cells_append a bs _ x h1 h2

/-- No read below the first cell's offset finds a byte. -/
theorem read_none_of_le_head (c : Host.Cell) (m : Mem) (x : Nat) (h : x < c.1) : Mem.read (c :: m) x = none := by
  rw [read_cons, if_neg (by omega), if_neg (by omega)]

theorem read_dropWhile_ge (m : Mem) (b x : Nat) (h : x < b) :
    Mem.read (m.dropWhile (fun c => decide (c.1 < b))) x = none := by
  cases hd : m.dropWhile (fun c => decide (c.1 < b)) with
  | nil => rfl
  | cons c n =>
    have hne : m.dropWhile (fun c => decide (c.1 < b)) ≠ [] := by simp [hd]
    have := List.head_dropWhile_not (fun c : Host.Cell => decide (c.1 < b)) hne
    simp only [hd, List.head_cons, decide_eq_false_iff_not] at this
    exact read_none_of_le_head c n x (by omega)

/-- A read below the written run sees what was there. -/
theorem read_write_below (m : Mem) (a : Nat) (bs : List Byte) (x : Nat) (h : x < a) : (m.write a bs).read x = m.read x := by
  unfold Mem.write
  rw [List.append_assoc]
  induction m with
  | nil =>
    cases bs with
    | nil => rfl
    | cons b bs => simp [Mem.cells, read_cons, show ¬ a < x by omega, show ¬ a = x by omega]
  | cons c m ih =>
    by_cases hc : c.1 < a
    · have hc' : c.1 < a + bs.length := by omega
      simp only [List.takeWhile_cons, List.dropWhile_cons, hc, hc', decide_true, if_true, List.cons_append, read_cons]
      by_cases hx : c.1 < x
      · simp only [hx, if_true]; exact ih
      · simp [hx]
    · have hnone : Mem.read (c :: m) x = none := read_none_of_le_head c m x (by omega)
      rw [hnone]
      simp only [List.takeWhile_cons, hc, decide_false]
      cases bs with
      | nil => simpa [Mem.cells] using read_dropWhile_ge (c :: m) a x h
      | cons b bs => exact read_none_of_le_head _ _ x h

/-- A read above the written run sees what was there. -/
theorem read_write_above (m : Mem) (a : Nat) (bs : List Byte) (x : Nat) (h : a + bs.length ≤ x) :
    (m.write a bs).read x = m.read x := by
  unfold Mem.write
  rw [read_append_below, read_dropWhile m _ x h]
  intro c hc
  rcases List.mem_append.1 hc with hc | hc
  · have := mem_takeWhile_lt m a c hc; omega
  · have := mem_cells a bs c hc; omega

/-- A write, byte by byte. -/
theorem read_write (m : Mem) (a : Nat) (bs : List Byte) (x : Nat) :
    (m.write a bs).read x = if a ≤ x ∧ x < a + bs.length then bs[x - a]? else m.read x := by
  by_cases h1 : a ≤ x
  · by_cases h2 : x < a + bs.length
    · rw [if_pos ⟨h1, h2⟩, read_write_inside m a bs x h1 h2]
    · rw [if_neg (by omega), read_write_above m a bs x (by omega)]
  · rw [if_neg (by omega), read_write_below m a bs x (by omega)]

/-! ### Runs -/

/-- Reading a run is reading its bytes one by one (R38). -/
theorem slots_eq_map_read (m : Mem) (a n : Nat) : m.slots a n = (List.range' a n).map m.read := by
  induction n generalizing m a with
  | zero => rfl
  | succ n ih =>
    simp only [Mem.slots, List.range'_succ, List.map_cons, List.cons.injEq, true_and, ih]
    apply List.map_congr_left
    intro x hx
    have := List.mem_range'_1.1 hx
    exact read_dropWhile m a x (by omega)

theorem allWritten_map_some (bs : List Byte) : allWritten (bs.map some) = some bs := by
  induction bs with
  | nil => rfl
  | cons b bs ih => simp [allWritten, ih]

theorem allWritten_eq_some {l : List (Option Byte)} {bs : List Byte} (h : allWritten l = some bs) :
    l = bs.map some := by
  induction l generalizing bs with
  | nil => simp [allWritten] at h; simp [← h]
  | cons o l ih =>
    cases o with
    | none => simp [allWritten] at h
    | some b =>
      simp only [allWritten, Option.map_eq_some_iff] at h
      obtain ⟨r, hr, rfl⟩ := h
      simp [ih hr]

/-- `MemRead` answers exactly the bytes that the single reads give. -/
theorem bytes_eq_some_iff (m : Mem) (a n : Nat) (bs : List Byte) :
    m.bytes a n = some bs ↔ bs.length = n ∧ ∀ i, i < n → m.read (a + i) = bs[i]? := by
  unfold Mem.bytes
  rw [slots_eq_map_read]
  constructor
  · intro h
    have h1 := allWritten_eq_some h
    have hl : bs.length = n := by simpa using (congrArg List.length h1).symm
    refine ⟨hl, fun i hi => ?_⟩
    have h2 := congrArg (fun l => l[i]?) h1
    simp only [List.getElem?_map] at h2
    rw [List.getElem?_range' hi] at h2
    simp only [Option.map_some, Nat.one_mul] at h2
    have hi' : i < bs.length := by omega
    simpa [List.getElem?_eq_getElem hi'] using h2
  · rintro ⟨hl, h⟩
    have : (List.range' a n).map m.read = bs.map some := by
      apply List.ext_getElem?
      intro i
      simp only [List.getElem?_map]
      by_cases hi : i < n
      · rw [List.getElem?_range' hi]
        have hi' : i < bs.length := by omega
        simpa [List.getElem?_eq_getElem hi'] using h i hi
      · rw [List.getElem?_eq_none (by simp; omega), List.getElem?_eq_none (by omega)]
        rfl
    rw [this, allWritten_map_some]

/-- `MemRead` fails exactly where a byte of the range holds no value. -/
theorem bytes_eq_none_iff (m : Mem) (a n : Nat) : m.bytes a n = none ↔ ∃ i, i < n ∧ m.read (a + i) = none := by
  constructor
  · intro h
    by_contra hc
    have hc : ∀ i, i < n → (m.read (a + i)).isSome := by
      intro i hi
      rw [Option.isSome_iff_ne_none]
      exact fun hn => hc ⟨i, hi, hn⟩
    have : m.bytes a n = some ((List.range n).map fun i => (m.read (a + i)).getD 0#8) := by
      rw [bytes_eq_some_iff]
      refine ⟨by simp, fun i hi => ?_⟩
      obtain ⟨b, hb⟩ := Option.isSome_iff_exists.1 (hc i hi)
      simp [List.getElem?_map, List.getElem?_range hi, hb]
    simp [this] at h
  · rintro ⟨i, hi, hn⟩
    cases hb : m.bytes a n with
    | none => rfl
    | some bs =>
      have := (bytes_eq_some_iff m a n bs).1 hb
      have h2 := this.2 i hi
      rw [hn, List.getElem?_eq_getElem (by omega)] at h2
      simp at h2

/-- Where every byte holds a value, the host reads those bytes and uses no free byte. -/
theorem fillFree_map_some (c : Nat) (bs : List Byte) : fillFree c (bs.map some) = (bs, c) := by
  induction bs with
  | nil => rfl
  | cons b bs ih => simp [fillFree, ih]

@[simp] theorem length_fillFree (c : Nat) (l : List (Option Byte)) : (fillFree c l).1.length = l.length := by
  induction l generalizing c with
  | nil => rfl
  | cons o l ih => cases o <;> simp [fillFree, ih]

@[simp] theorem length_slots (m : Mem) (a n : Nat) : (m.slots a n).length = n := by simp [slots_eq_map_read]

/-! ### The canonical form -/

/-- The canonical form says that the offsets rise strictly. -/
theorem wf_iff_pairwise (m : Mem) : m.wf = true ↔ m.Pairwise (fun c d => c.1 < d.1) := by
  induction m with
  | nil => simp [Mem.wf]
  | cons c m ih =>
    cases m with
    | nil => simp [Mem.wf]
    | cons d m =>
      rw [Mem.wf, Bool.and_eq_true, ih, decide_eq_true_iff]
      constructor
      · rintro ⟨h1, h2⟩
        refine List.pairwise_cons.2 ⟨fun e he => ?_, h2⟩
        rcases List.mem_cons.1 he with rfl | he
        · exact h1
        · exact Nat.lt_trans h1 ((List.pairwise_cons.1 h2).1 e he)
      · intro h
        exact ⟨(List.pairwise_cons.1 h).1 d (by simp), (List.pairwise_cons.1 h).2⟩

theorem cells_wf (a : Nat) (bs : List Byte) : (Mem.cells a bs).wf = true := by
  rw [wf_iff_pairwise]
  induction bs generalizing a with
  | nil => simp [Mem.cells]
  | cons b bs ih =>
    refine List.pairwise_cons.2 ⟨fun c hc => ?_, ih (a + 1)⟩
    have := mem_cells (a + 1) bs c hc
    simp only
    omega

theorem mem_dropWhile_ge (m : Mem) (b : Nat) (h : m.wf = true) :
    ∀ c ∈ m.dropWhile (fun c => decide (c.1 < b)), b ≤ c.1 := by
  rw [wf_iff_pairwise] at h
  induction m with
  | nil => simp
  | cons d m ih =>
    intro c hc
    by_cases hd : d.1 < b
    · simp only [List.dropWhile_cons, hd, decide_true, if_true] at hc
      exact ih (List.pairwise_cons.1 h).2 c hc
    · simp only [List.dropWhile_cons, hd, decide_false] at hc
      rcases List.mem_cons.1 hc with rfl | hc
      · omega
      · have := (List.pairwise_cons.1 h).1 c hc; omega

/-- A write keeps the canonical form. -/
theorem write_wf (m : Mem) (a : Nat) (bs : List Byte) (h : m.wf = true) : (m.write a bs).wf = true := by
  rw [wf_iff_pairwise]
  unfold Mem.write
  have hp := (wf_iff_pairwise m).1 h
  rw [List.pairwise_append, List.pairwise_append]
  refine ⟨⟨hp.sublist (List.takeWhile_sublist _), (wf_iff_pairwise _).1 (cells_wf a bs), ?_⟩,
    hp.sublist (List.dropWhile_sublist _), ?_⟩
  · intro c hc d hd
    have h1 := mem_takeWhile_lt m a c hc
    have h2 := mem_cells a bs d hd
    omega
  · intro c hc d hd
    have h2 := mem_dropWhile_ge m _ h d hd
    rcases List.mem_append.1 hc with hc | hc
    · have h1 := mem_takeWhile_lt m a c hc; omega
    · have h1 := mem_cells a bs c hc; omega

/-- After reset both buffers have the canonical form. -/
theorem reset_wf : State.reset.ibuf.wf = true ∧ State.reset.obuf.wf = true := ⟨rfl, rfl⟩

/-- A write adds no offset but those it writes. -/
theorem mem_write (m : Mem) (a : Nat) (bs : List Byte) (c : Host.Cell) (h : c ∈ m.write a bs) :
    c ∈ m ∨ (a ≤ c.1 ∧ c.1 < a + bs.length) := by
  unfold Mem.write at h
  simp only [List.mem_append] at h
  rcases h with (h | h) | h
  · exact .inl (List.takeWhile_subset _ h)
  · exact .inr (mem_cells a bs c h)
  · exact .inl (List.dropWhile_subset _ h)

/-- In canonical form, equal reads mean equal buffers. -/
theorem ext_of_wf (m n : Mem) (hm : m.wf = true) (hn : n.wf = true) (h : ∀ a, m.read a = n.read a) : m = n := by
  rw [wf_iff_pairwise] at hm hn
  induction m generalizing n with
  | nil =>
    cases n with
    | nil => rfl
    | cons d n =>
      have := h d.1
      simp [read_cons] at this
  | cons c m ih =>
    cases n with
    | nil =>
      have := h c.1
      simp [read_cons] at this
    | cons d n =>
      have hc := h c.1
      have hd := h d.1
      simp only [read_cons, lt_self_iff_false, if_false, if_true] at hc hd
      have hmc := List.pairwise_cons.1 hm
      have hnd := List.pairwise_cons.1 hn
      have hkey : c.1 = d.1 := by
        rcases Nat.lt_trichotomy c.1 d.1 with hlt | heq | hgt
        · simp [show ¬ d.1 < c.1 by omega, show ¬ d.1 = c.1 by omega] at hc
        · exact heq
        · simp [show ¬ c.1 < d.1 by omega, show ¬ c.1 = d.1 by omega] at hd
      have hval : c.2 = d.2 := by simpa [hkey] using hc
      have hcd : c = d := Prod.ext hkey hval
      subst hcd
      congr 1
      refine ih n hmc.2 hnd.2 fun a => ?_
      by_cases ha : c.1 < a
      · have := h a
        simpa [read_cons, ha] using this
      · have low : ∀ l : Mem, (∀ e ∈ l, c.1 < e.1) → l.read a = none := by
          intro l hl
          cases l with
          | nil => rfl
          | cons e l => exact read_none_of_le_head e l a (by have := hl e (by simp); omega)
        rw [low m hmc.1, low n hnd.1]

end Sys2Proof.Machine
end

