-- ==== Sys2Proof/Laws/State.lean ====
section
/-! SUPPORT. One lemma per field per update of the state: what `finish`, `raise`, the header step of `CFG.EXTRACT` and a
host read leave in each field. No later proof unfolds a record update. -/

namespace Sys2Proof.Machine

@[simp] theorem finish_keyState (s : State) (out : List Byte) (warn : Bool) : (s.finish out warn).keyState = s.keyState := rfl
@[simp] theorem finish_cmd (s : State) (out : List Byte) (warn : Bool) : (s.finish out warn).cmd = s.cmd := rfl
@[simp] theorem finish_status (s : State) (out : List Byte) (warn : Bool) : (s.finish out warn).status = okStatus warn := rfl
@[simp] theorem finish_inLen (s : State) (out : List Byte) (warn : Bool) : (s.finish out warn).inLen = s.inLen := rfl
@[simp] theorem finish_outLen (s : State) (out : List Byte) (warn : Bool) : (s.finish out warn).outLen = BitVec.ofNat 32 out.length := rfl
@[simp] theorem finish_argMagic (s : State) (out : List Byte) (warn : Bool) : (s.finish out warn).argMagic = s.argMagic := rfl
@[simp] theorem finish_argVersion (s : State) (out : List Byte) (warn : Bool) : (s.finish out warn).argVersion = s.argVersion := rfl
@[simp] theorem finish_result (s : State) (out : List Byte) (warn : Bool) : (s.finish out warn).result = s.result := rfl
@[simp] theorem finish_hdrMagic (s : State) (out : List Byte) (warn : Bool) : (s.finish out warn).hdrMagic = s.hdrMagic := rfl
@[simp] theorem finish_hdrLength (s : State) (out : List Byte) (warn : Bool) : (s.finish out warn).hdrLength = s.hdrLength := rfl
@[simp] theorem finish_hdrCheck (s : State) (out : List Byte) (warn : Bool) : (s.finish out warn).hdrCheck = s.hdrCheck := rfl
@[simp] theorem finish_hdrVersion (s : State) (out : List Byte) (warn : Bool) : (s.finish out warn).hdrVersion = s.hdrVersion := rfl
@[simp] theorem finish_ibuf (s : State) (out : List Byte) (warn : Bool) : (s.finish out warn).ibuf = s.ibuf := rfl
@[simp] theorem finish_obuf (s : State) (out : List Byte) (warn : Bool) : (s.finish out warn).obuf = Mem.cells 0 out := rfl
@[simp] theorem finish_script (s : State) (out : List Byte) (warn : Bool) : (s.finish out warn).script = s.script := rfl
@[simp] theorem finish_seen (s : State) (out : List Byte) (warn : Bool) : (s.finish out warn).seen = s.seen := rfl
@[simp] theorem finish_freeCount (s : State) (out : List Byte) (warn : Bool) : (s.finish out warn).freeCount = s.freeCount := rfl

@[simp] theorem raise_keyState (s : State) (e : ErrorKind) : (s.raise e).keyState = s.keyState := rfl
@[simp] theorem raise_cmd (s : State) (e : ErrorKind) : (s.raise e).cmd = s.cmd := rfl
@[simp] theorem raise_status (s : State) (e : ErrorKind) : (s.raise e).status = errorStatus e := rfl
@[simp] theorem raise_inLen (s : State) (e : ErrorKind) : (s.raise e).inLen = s.inLen := rfl
@[simp] theorem raise_outLen (s : State) (e : ErrorKind) : (s.raise e).outLen = 0#32 := rfl
@[simp] theorem raise_argMagic (s : State) (e : ErrorKind) : (s.raise e).argMagic = s.argMagic := rfl
@[simp] theorem raise_argVersion (s : State) (e : ErrorKind) : (s.raise e).argVersion = s.argVersion := rfl
@[simp] theorem raise_result (s : State) (e : ErrorKind) : (s.raise e).result = s.result := rfl
@[simp] theorem raise_hdrMagic (s : State) (e : ErrorKind) : (s.raise e).hdrMagic = s.hdrMagic := rfl
@[simp] theorem raise_hdrLength (s : State) (e : ErrorKind) : (s.raise e).hdrLength = s.hdrLength := rfl
@[simp] theorem raise_hdrCheck (s : State) (e : ErrorKind) : (s.raise e).hdrCheck = s.hdrCheck := rfl
@[simp] theorem raise_hdrVersion (s : State) (e : ErrorKind) : (s.raise e).hdrVersion = s.hdrVersion := rfl
@[simp] theorem raise_ibuf (s : State) (e : ErrorKind) : (s.raise e).ibuf = s.ibuf := rfl
@[simp] theorem raise_obuf (s : State) (e : ErrorKind) : (s.raise e).obuf = [] := rfl
@[simp] theorem raise_script (s : State) (e : ErrorKind) : (s.raise e).script = s.script := rfl
@[simp] theorem raise_seen (s : State) (e : ErrorKind) : (s.raise e).seen = s.seen := rfl
@[simp] theorem raise_freeCount (s : State) (e : ErrorKind) : (s.raise e).freeCount = s.freeCount := rfl

@[simp] theorem putCfgHeader_keyState (s : State) (p : List Byte) : (s.putCfgHeader p).keyState = s.keyState := by unfold State.putCfgHeader; split <;> rfl
@[simp] theorem putCfgHeader_cmd (s : State) (p : List Byte) : (s.putCfgHeader p).cmd = s.cmd := by unfold State.putCfgHeader; split <;> rfl
@[simp] theorem putCfgHeader_status (s : State) (p : List Byte) : (s.putCfgHeader p).status = s.status := by unfold State.putCfgHeader; split <;> rfl
@[simp] theorem putCfgHeader_inLen (s : State) (p : List Byte) : (s.putCfgHeader p).inLen = s.inLen := by unfold State.putCfgHeader; split <;> rfl
@[simp] theorem putCfgHeader_outLen (s : State) (p : List Byte) : (s.putCfgHeader p).outLen = s.outLen := by unfold State.putCfgHeader; split <;> rfl
@[simp] theorem putCfgHeader_argMagic (s : State) (p : List Byte) : (s.putCfgHeader p).argMagic = s.argMagic := by unfold State.putCfgHeader; split <;> rfl
@[simp] theorem putCfgHeader_argVersion (s : State) (p : List Byte) : (s.putCfgHeader p).argVersion = s.argVersion := by unfold State.putCfgHeader; split <;> rfl
@[simp] theorem putCfgHeader_result (s : State) (p : List Byte) : (s.putCfgHeader p).result = s.result := by unfold State.putCfgHeader; split <;> rfl
@[simp] theorem putCfgHeader_hdrMagic (s : State) (p : List Byte) : (s.putCfgHeader p).hdrMagic = if Config.cfgHdr ≤ p.length then cfgMagic p else 0#32 := by unfold State.putCfgHeader; split <;> rfl
@[simp] theorem putCfgHeader_hdrLength (s : State) (p : List Byte) : (s.putCfgHeader p).hdrLength = if Config.cfgHdr ≤ p.length then cfgLength p else 0#32 := by unfold State.putCfgHeader; split <;> rfl
@[simp] theorem putCfgHeader_hdrCheck (s : State) (p : List Byte) : (s.putCfgHeader p).hdrCheck = if Config.cfgHdr ≤ p.length then cfgCheck p else 0#32 := by unfold State.putCfgHeader; split <;> rfl
@[simp] theorem putCfgHeader_hdrVersion (s : State) (p : List Byte) : (s.putCfgHeader p).hdrVersion = if Config.cfgHdr ≤ p.length then cfgVersion p else 0#32 := by unfold State.putCfgHeader; split <;> rfl
@[simp] theorem putCfgHeader_ibuf (s : State) (p : List Byte) : (s.putCfgHeader p).ibuf = s.ibuf := by unfold State.putCfgHeader; split <;> rfl
@[simp] theorem putCfgHeader_obuf (s : State) (p : List Byte) : (s.putCfgHeader p).obuf = s.obuf := by unfold State.putCfgHeader; split <;> rfl
@[simp] theorem putCfgHeader_script (s : State) (p : List Byte) : (s.putCfgHeader p).script = s.script := by unfold State.putCfgHeader; split <;> rfl
@[simp] theorem putCfgHeader_seen (s : State) (p : List Byte) : (s.putCfgHeader p).seen = s.seen := by unfold State.putCfgHeader; split <;> rfl
@[simp] theorem putCfgHeader_freeCount (s : State) (p : List Byte) : (s.putCfgHeader p).freeCount = s.freeCount := by unfold State.putCfgHeader; split <;> rfl

@[simp] theorem hostReadReg_keyState (s : State) (n : Nat) : (hostReadReg n s).keyState = s.keyState := rfl
@[simp] theorem hostReadReg_cmd (s : State) (n : Nat) : (hostReadReg n s).cmd = s.cmd := rfl
@[simp] theorem hostReadReg_status (s : State) (n : Nat) : (hostReadReg n s).status = s.status := rfl
@[simp] theorem hostReadReg_inLen (s : State) (n : Nat) : (hostReadReg n s).inLen = s.inLen := rfl
@[simp] theorem hostReadReg_outLen (s : State) (n : Nat) : (hostReadReg n s).outLen = s.outLen := rfl
@[simp] theorem hostReadReg_argMagic (s : State) (n : Nat) : (hostReadReg n s).argMagic = s.argMagic := rfl
@[simp] theorem hostReadReg_argVersion (s : State) (n : Nat) : (hostReadReg n s).argVersion = s.argVersion := rfl
@[simp] theorem hostReadReg_result (s : State) (n : Nat) : (hostReadReg n s).result = s.result := rfl
@[simp] theorem hostReadReg_hdrMagic (s : State) (n : Nat) : (hostReadReg n s).hdrMagic = s.hdrMagic := rfl
@[simp] theorem hostReadReg_hdrLength (s : State) (n : Nat) : (hostReadReg n s).hdrLength = s.hdrLength := rfl
@[simp] theorem hostReadReg_hdrCheck (s : State) (n : Nat) : (hostReadReg n s).hdrCheck = s.hdrCheck := rfl
@[simp] theorem hostReadReg_hdrVersion (s : State) (n : Nat) : (hostReadReg n s).hdrVersion = s.hdrVersion := rfl
@[simp] theorem hostReadReg_ibuf (s : State) (n : Nat) : (hostReadReg n s).ibuf = s.ibuf := rfl
@[simp] theorem hostReadReg_obuf (s : State) (n : Nat) : (hostReadReg n s).obuf = s.obuf := rfl
@[simp] theorem hostReadReg_script (s : State) (n : Nat) : (hostReadReg n s).script = s.script := rfl
@[simp] theorem hostReadReg_seen (s : State) (n : Nat) : (hostReadReg n s).seen = .reg n (s.readReg n) :: s.seen := rfl
@[simp] theorem hostReadReg_freeCount (s : State) (n : Nat) : (hostReadReg n s).freeCount = s.freeCount := rfl

@[simp] theorem hostReset_keyState (s : State) : (hostReset s).keyState = State.reset.keyState := rfl
@[simp] theorem hostReset_cmd (s : State) : (hostReset s).cmd = State.reset.cmd := rfl
@[simp] theorem hostReset_status (s : State) : (hostReset s).status = State.reset.status := rfl
@[simp] theorem hostReset_inLen (s : State) : (hostReset s).inLen = State.reset.inLen := rfl
@[simp] theorem hostReset_outLen (s : State) : (hostReset s).outLen = State.reset.outLen := rfl
@[simp] theorem hostReset_argMagic (s : State) : (hostReset s).argMagic = State.reset.argMagic := rfl
@[simp] theorem hostReset_argVersion (s : State) : (hostReset s).argVersion = State.reset.argVersion := rfl
@[simp] theorem hostReset_result (s : State) : (hostReset s).result = State.reset.result := rfl
@[simp] theorem hostReset_hdrMagic (s : State) : (hostReset s).hdrMagic = State.reset.hdrMagic := rfl
@[simp] theorem hostReset_hdrLength (s : State) : (hostReset s).hdrLength = State.reset.hdrLength := rfl
@[simp] theorem hostReset_hdrCheck (s : State) : (hostReset s).hdrCheck = State.reset.hdrCheck := rfl
@[simp] theorem hostReset_hdrVersion (s : State) : (hostReset s).hdrVersion = State.reset.hdrVersion := rfl
@[simp] theorem hostReset_ibuf (s : State) : (hostReset s).ibuf = State.reset.ibuf := rfl
@[simp] theorem hostReset_obuf (s : State) : (hostReset s).obuf = State.reset.obuf := rfl
@[simp] theorem hostReset_script (s : State) : (hostReset s).script = s.script := rfl
@[simp] theorem hostReset_seen (s : State) : (hostReset s).seen = s.seen := rfl
@[simp] theorem hostReset_freeCount (s : State) : (hostReset s).freeCount = s.freeCount := rfl

end Sys2Proof.Machine
end

