-- ==== Sys2Proof/Laws/Ops.lean ====
section
/-! SUPPORT. What each shared operation can do, said once: the capacity test, reading a command's input, ending a
command, the register file. -/

namespace Sys2Proof.Machine

/-! ### Capacity (R6, R153) -/

theorem overCapacity_iff (n : Nat) : overCapacity n = true ↔ Config.bufCap < n := by
  simp [overCapacity, Config.bufCap]

theorem overCapacity_eq_false_iff (n : Nat) : overCapacity n = false ↔ n ≤ Config.bufCap := by
  rw [← Bool.not_eq_true, overCapacity_iff]
  omega

theorem overCapacity_false {n : Nat} (h : n ≤ Config.bufCap) : overCapacity n = false :=
  (overCapacity_eq_false_iff n).2 h

theorem nvImage_le_bufCap : 65536 ≤ Config.bufCap := Nat.le_max_left _ _

theorem cfgImage_le_bufCap : Config.cfgMax + 24 ≤ Config.bufCap := Nat.le_max_right _ _

/-- The lower bound R5 puts on `CFG_MAX`. -/
theorem cfgMax_lower : 4096 < Config.cfgMax := by
  unfold Config.cfgMax
  omega

/-- The upper bound R5 puts on `CFG_MAX`. -/
theorem cfgMax_upper : Config.cfgMax + 24 < 2 ^ 32 := by
  have h := Config.cfgMaxAbove.isLt
  unfold Config.cfgMax
  generalize Config.cfgMaxAbove.val = v at *
  omega

theorem bufCap_lt : Config.bufCap < 2 ^ 32 := by
  have := cfgMax_upper
  simp only [Config.bufCap, Config.nvImage, Config.cfgHdr]
  omega

/-! ### Input (R25) -/

theorem withInput_of_hasInput {s : State} {input : List Byte} (h : s.HasInput input) (k : List Byte → Result) :
    s.withInput k = k input := by
  have : s.ibuf.bytes 0 s.inLen.toNat = some input :=
    (bytes_eq_some_iff _ _ _ _).2 ⟨h.1.symm, fun i hi => by simpa using h.2 i (by rw [h.1] at hi; exact hi)⟩
  unfold State.withInput
  rw [this]

theorem hasInput_iff (s : State) (input : List Byte) : s.HasInput input ↔ s.ibuf.bytes 0 s.inLen.toNat = some input := by
  rw [bytes_eq_some_iff]
  constructor
  · rintro ⟨h1, h2⟩
    exact ⟨h1.symm, fun i hi => by simpa using h2 i (by rw [h1] at hi; exact hi)⟩
  · rintro ⟨h1, h2⟩
    exact ⟨h1.symm, fun i hi => by simpa using h2 i (by rw [← h1]; exact hi)⟩

/-- Reading a command's input either goes on with bytes the state holds or stops on a byte never written. -/
theorem withInput_cases (s : State) (k : List Byte → Result) :
    (∃ input, s.HasInput input ∧ s.withInput k = k input) ∨
      ((∃ a, a < s.inLen.toNat ∧ s.ibuf.read a = none) ∧ s.withInput k = .fault .unwrittenInput) := by
  unfold State.withInput
  cases hb : s.ibuf.bytes 0 s.inLen.toNat with
  | some bs => exact .inl ⟨bs, (hasInput_iff s bs).2 hb, rfl⟩
  | none =>
    obtain ⟨i, hi, hn⟩ := (bytes_eq_none_iff _ _ _).1 hb
    exact .inr ⟨⟨i, hi, by simpa using hn⟩, rfl⟩

/-- If a command that reads its input answers a next state, its input was there. -/
theorem withInput_next {s t : State} {k : List Byte → Result} (h : s.withInput k = .next t) :
    ∃ input, s.HasInput input ∧ k input = .next t := by
  rcases withInput_cases s k with ⟨input, hi, hk⟩ | ⟨_, hk⟩
  · exact ⟨input, hi, hk ▸ h⟩
  · rw [hk] at h; cases h

/-- The input is determined by the state. -/
theorem hasInput_unique {s : State} {p q : List Byte} (hp : s.HasInput p) (hq : s.HasInput q) : p = q := by
  rw [hasInput_iff] at hp hq
  simpa [hp] using hq

theorem hasInput_of_cells {s : State} (bs : List Byte) (hm : s.ibuf = Mem.cells 0 bs) (hl : s.inLen.toNat = bs.length) :
    s.HasInput bs := ⟨hl, fun a _ => by rw [hm, read_cells]⟩

/-! ### The end of a command -/

/-- The output of a finished command is what it was given. -/
theorem finish_hasOutput (s : State) (out : List Byte) (warn : Bool) (h : out.length < 2 ^ 32) :
    (s.finish out warn).HasOutput out := by
  refine ⟨?_, fun a _ => read_cells out a⟩
  simp only [finish_outLen, BitVec.toNat_ofNat]
  exact Nat.mod_eq_of_lt h

theorem raise_hasOutput (s : State) (e : ErrorKind) : (s.raise e).HasOutput [] := ⟨rfl, fun a h => by simp at h⟩

theorem okStatus_cases (warn : Bool) : okStatus warn = 0#32 ∨ okStatus warn = 0x100#32 := by cases warn <;> simp [okStatus]

/-- An error's status is its code, between 1 and 0x11 (R150). -/
theorem errorStatus_toNat (e : ErrorKind) : (errorStatus e).toNat = e.code.toNat := by cases e <;> rfl

end Sys2Proof.Machine
end

