-- ==== Sys2Proof/Laws/Codec.lean ====
section
/-! SUPPORT. Laws of byte sequences and of the cipher framing: slices, splitting into blocks and joining them, the
length and the key-stream advance of a pass, and decryption after encryption. -/

namespace Sys2Proof.Machine

/-! ### Byte sequences -/

@[simp] theorem length_toList (k : Bytes8) : k.toList.length = 8 := rfl

@[simp] theorem length_toBe32 (v : Word) : (toBe32 v).length = 4 := by simp [toBe32]

theorem length_splice (s : List Byte) (a : Nat) (v : List Byte) (h : a + v.length ≤ s.length) :
    (splice s a v).length = s.length := by
  simp only [splice, List.length_append, List.length_take, List.length_drop]
  omega

/-- The same for a sequence whose length has a name, so that splices chain. -/
theorem length_splice_of_eq {s : List Byte} {n : Nat} (hs : s.length = n) {a : Nat} {v : List Byte}
    (h : a + v.length ≤ n) : (splice s a v).length = n := by
  rw [length_splice s a v (hs ▸ h), hs]

/-- A spliced sequence, byte by byte. -/
theorem getElem?_splice (s : List Byte) (a : Nat) (v : List Byte) (h : a + v.length ≤ s.length) (i : Nat) :
    (splice s a v)[i]? = if a ≤ i ∧ i < a + v.length then v[i - a]? else s[i]? := by
  have ha : (s.take a).length = a := by simp only [List.length_take]; omega
  unfold splice
  by_cases h1 : i < a
  · rw [List.append_assoc, List.getElem?_append_left (by omega), List.getElem?_take_of_lt h1, if_neg (by omega)]
  · by_cases h2 : i < a + v.length
    · rw [List.append_assoc, List.getElem?_append_right (by omega), ha, List.getElem?_append_left (by omega),
        if_pos ⟨by omega, h2⟩]
    · rw [List.getElem?_append_right (by simp only [List.length_append]; omega), List.getElem?_drop, if_neg (by omega)]
      congr 1
      simp only [List.length_append, ha]
      omega

theorem byteAt_eq (s : List Byte) (i : Nat) : byteAt s i = (s[i]?).getD 0#8 := by
  simp [byteAt, List.getD_eq_getElem?_getD]

theorem byteAt_splice (s : List Byte) (a : Nat) (v : List Byte) (h : a + v.length ≤ s.length) (i : Nat) :
    byteAt (splice s a v) i = if a ≤ i ∧ i < a + v.length then byteAt v (i - a) else byteAt s i := by
  simp only [byteAt_eq, getElem?_splice s a v h]
  split <;> rfl

theorem getElem?_eq_byteAt {s : List Byte} {i : Nat} (h : i < s.length) : s[i]? = some (byteAt s i) := by
  rw [byteAt_eq, List.getElem?_eq_getElem h]
  rfl

/-- Two sequences of one length with the same bytes are the same. -/
theorem ext_byteAt {s v : List Byte} (hl : s.length = v.length) (h : ∀ i, i < s.length → byteAt s i = byteAt v i) :
    s = v := by
  apply List.ext_getElem?
  intro i
  by_cases hi : i < s.length
  · rw [getElem?_eq_byteAt hi, getElem?_eq_byteAt (hl ▸ hi), h i hi]
  · rw [List.getElem?_eq_none (by omega), List.getElem?_eq_none (by omega)]

/-- A big-endian field is its four bytes as a number (R8). -/
theorem be32At_toNat (s : List Byte) (a : Nat) :
    (be32At s a).toNat = (byteAt s a).toNat * 2 ^ 24 + (byteAt s (a + 1)).toNat * 2 ^ 16 +
      (byteAt s (a + 2)).toNat * 2 ^ 8 + (byteAt s (a + 3)).toNat := by
  have cat : ∀ (n : Nat) (x : BitVec n) (y : Byte), (x ++ y).toNat = x.toNat * 2 ^ 8 + y.toNat := by
    intro n x y
    rw [BitVec.toNat_append, ← Nat.shiftLeft_add_eq_or_of_lt y.isLt, Nat.shiftLeft_eq]
  simp only [be32At, cat]
  omega

/-- Reading back a stored big-endian value. -/
theorem be32_of_toBe32 (v : Word) :
    (byteAt (toBe32 v) 0 ++ byteAt (toBe32 v) 1 ++ byteAt (toBe32 v) 2 ++ byteAt (toBe32 v) 3 : BitVec 32) = v := by
  apply BitVec.eq_of_getLsbD_eq
  intro i hi
  simp only [toBe32, byteAt, List.getD_cons_zero, List.getD_cons_succ, BitVec.getLsbD_append,
    BitVec.getLsbD_extractLsb']
  by_cases h1 : i < 8
  · simp [h1]
  · by_cases h2 : i < 16
    · simp [h1, show i - 8 < 8 by omega, show 8 + (i - 8) = i by omega]
    · by_cases h3 : i < 24
      · simp [h1, show ¬ i - 8 < 8 by omega, show i - 8 - 8 < 8 by omega, show 16 + (i - 8 - 8) = i by omega]
      · simp [h1, show ¬ i - 8 < 8 by omega, show ¬ i - 8 - 8 < 8 by omega, show i - 8 - 8 - 8 < 8 by omega,
          show 24 + (i - 8 - 8 - 8) = i by omega]

/-- A field that was stored big-endian reads back. -/
theorem be32At_splice (s : List Byte) (a : Nat) (v : Word) (h : a + 4 ≤ s.length) :
    be32At (splice s a (toBe32 v)) a = v := by
  have hb : ∀ k, k < 4 → byteAt (splice s a (toBe32 v)) (a + k) = byteAt (toBe32 v) k := by
    intro k hk
    rw [byteAt_splice _ _ _ (by simpa using h), if_pos ⟨by omega, by simp; omega⟩]
    congr 1
    omega
  have h0 := hb 0 (by omega)
  simp only [Nat.add_zero] at h0
  rw [be32At, h0, hb 1 (by omega), hb 2 (by omega), hb 3 (by omega)]
  exact be32_of_toBe32 v

/-- A splice elsewhere changes no field. -/
theorem be32At_splice_of_disjoint (s : List Byte) (a : Nat) (v : List Byte) (b : Nat) (h : a + v.length ≤ s.length)
    (hd : b + 4 ≤ a ∨ a + v.length ≤ b) : be32At (splice s a v) b = be32At s b := by
  have hb : ∀ k, k < 4 → byteAt (splice s a v) (b + k) = byteAt s (b + k) := by
    intro k hk
    rw [byteAt_splice _ _ _ h, if_neg (by omega)]
  have h0 := hb 0 (by omega)
  simp only [Nat.add_zero] at h0
  rw [be32At, be32At, h0, hb 1 (by omega), hb 2 (by omega), hb 3 (by omega)]

/-! ### Blocks -/

theorem ofBlocks_cons (b : Bytes8) (l : List Bytes8) : ofBlocks (b :: l) = b.toList ++ ofBlocks l := rfl

@[simp] theorem length_ofBlocks (l : List Bytes8) : (ofBlocks l).length = 8 * l.length := by
  induction l with
  | nil => rfl
  | cons b l ih => rw [ofBlocks_cons, List.length_append, ih, length_toList, List.length_cons]; omega

/-- Splitting what was joined. -/
theorem toBlocks_ofBlocks (l : List Bytes8) : toBlocks (ofBlocks l) = l := by
  induction l with
  | nil => rfl
  | cons b l ih =>
    rw [ofBlocks_cons]
    simp only [Bytes8.toList, List.cons_append, List.nil_append, toBlocks, ih]

/-- A sequence that does not begin with eight bytes is shorter than a block. -/
theorem length_lt_of_no_block {s : List Byte}
    (hs : ∀ b0 b1 b2 b3 b4 b5 b6 b7 rest, s = b0 :: b1 :: b2 :: b3 :: b4 :: b5 :: b6 :: b7 :: rest → False) :
    s.length < 8 := by
  by_contra h
  match s, hs, h with
  | b0 :: b1 :: b2 :: b3 :: b4 :: b5 :: b6 :: b7 :: rest, hs, _ => exact hs b0 b1 b2 b3 b4 b5 b6 b7 rest rfl
  | [], _, h | [_], _, h | [_, _], _, h | [_, _, _], _, h | [_, _, _, _], _, h | [_, _, _, _, _], _, h
  | [_, _, _, _, _, _], _, h | [_, _, _, _, _, _, _], _, h => simp at h

theorem toBlocks_of_length_lt {s : List Byte} (h : s.length < 8) : toBlocks s = [] := by
  unfold toBlocks
  split
  · simp only [List.length_cons] at h
    omega
  · rfl

/-- Joining what was split, for a length that is a multiple of 8 (R63). -/
theorem ofBlocks_toBlocks (s : List Byte) (h : s.length % 8 = 0) : ofBlocks (toBlocks s) = s := by
  induction s using toBlocks.induct with
  | case1 b0 b1 b2 b3 b4 b5 b6 b7 rest ih =>
    rw [toBlocks, ofBlocks_cons, ih (by simp only [List.length_cons] at h; omega)]
    rfl
  | case2 s hs =>
    have := length_lt_of_no_block hs
    have h0 : s = [] := List.eq_nil_of_length_eq_zero (by omega)
    subst h0
    rfl

theorem length_toBlocks (s : List Byte) : (toBlocks s).length = s.length / 8 := by
  induction s using toBlocks.induct with
  | case1 b0 b1 b2 b3 b4 b5 b6 b7 rest ih =>
    rw [toBlocks, List.length_cons, ih]
    simp only [List.length_cons]
    omega
  | case2 s hs =>
    have := length_lt_of_no_block hs
    rw [toBlocks_of_length_lt this, List.length_nil]
    omega

/-- Block `j` of the split is block `j` of the bytes (R63). -/
theorem getElem?_toBlocks (s : List Byte) (j : Nat) (h : j < s.length / 8) : (toBlocks s)[j]? = some (blockAt s j) := by
  induction s using toBlocks.induct generalizing j with
  | case1 b0 b1 b2 b3 b4 b5 b6 b7 rest ih =>
    rw [toBlocks]
    cases j with
    | zero => rfl
    | succ j =>
      simp only [List.length_cons] at h
      rw [List.getElem?_cons_succ, ih j (by omega)]
      simp only [blockAt, Nat.mul_add, Nat.mul_one, byteAt, show ∀ x, 8 * j + 8 + x = 8 * j + x + 8 by omega,
        show 8 * j + 8 = 8 * j + 0 + 8 by omega]
      rfl
  | case2 s hs =>
    have := length_lt_of_no_block hs
    omega

/-- The block at `j` of joined blocks. -/
theorem blockAt_ofBlocks (l : List Bytes8) (j : Nat) (h : j < l.length) : blockAt (ofBlocks l) j = l[j] := by
  have h1 := getElem?_toBlocks (ofBlocks l) j (by rw [length_ofBlocks]; omega)
  rw [toBlocks_ofBlocks, List.getElem?_eq_getElem h] at h1
  simpa using h1.symm

/-! ### The pass (R80) -/

/-- A pass steps the key stream once per block. -/
theorem codecBlocks_keyState (f : Bytes8 → Bytes8 → Bytes8) (ks : Bytes8) (l : List Bytes8) :
    (codecBlocks f ks l).1 = nextKeyState^[l.length] ks := by
  induction l generalizing ks with
  | nil => rfl
  | cons b l ih => simp only [codecBlocks, ih, List.length_cons, Function.iterate_succ_apply]

@[simp] theorem length_codecBlocks (f : Bytes8 → Bytes8 → Bytes8) (ks : Bytes8) (l : List Bytes8) :
    (codecBlocks f ks l).2.length = l.length := by
  induction l generalizing ks with
  | nil => rfl
  | cons b l ih => simp [codecBlocks, ih]

/-- Block `j` of a pass is the block `j` of the input under the key of step `j + 1`. -/
theorem getElem?_codecBlocks (f : Bytes8 → Bytes8 → Bytes8) (ks : Bytes8) (l : List Bytes8) (j : Nat) :
    (codecBlocks f ks l).2[j]? = l[j]?.map (f (keyOf (nextKeyState^[j + 1] ks))) := by
  induction l generalizing ks j with
  | nil => rfl
  | cons b l ih =>
    cases j with
    | zero => rfl
    | succ j => simp only [codecBlocks, List.getElem?_cons_succ, ih, Function.iterate_succ_apply]

theorem codec_keyState (f : Bytes8 → Bytes8 → Bytes8) (ks : Bytes8) (input : List Byte) :
    (codec f ks input).1 = nextKeyState^[input.length / 8] ks := by
  rw [← length_toBlocks]
  exact codecBlocks_keyState f ks _

/-- The output of a pass is as long as the whole blocks of its input. -/
theorem length_codec (f : Bytes8 → Bytes8 → Bytes8) (ks : Bytes8) (input : List Byte) :
    (codec f ks input).2.length = 8 * (input.length / 8) := by
  simp [codec, length_toBlocks]

/-- `codec` meets R80 on whole blocks. -/
theorem codec_isCipherOf (f : Bytes8 → Bytes8 → Bytes8) (ks : Bytes8) (input : List Byte) (h : input.length % 8 = 0) :
    IsCipherOf f ks input (codec f ks input).2 := by
  refine ⟨by rw [length_codec]; omega, fun j hj => ?_⟩
  have hl : j < (codecBlocks f ks (toBlocks input)).2.length := by simpa [length_toBlocks] using hj
  have h1 := getElem?_codecBlocks f ks (toBlocks input) j
  rw [getElem?_toBlocks input j hj, List.getElem?_eq_getElem hl] at h1
  simp only [Option.map_some, Option.some.injEq] at h1
  simp only [codec]
  rw [blockAt_ofBlocks _ j hl, h1]

/-- R80 determines the output of a pass. -/
theorem isCipherOf_unique {f : Bytes8 → Bytes8 → Bytes8} {ks : Bytes8} {input p q : List Byte}
    (h : input.length % 8 = 0) (hp : IsCipherOf f ks input p) (hq : IsCipherOf f ks input q) : p = q := by
  have key : ∀ r, IsCipherOf f ks input r → ∀ i, i < (toBlocks p).length → (toBlocks r)[i]? = (toBlocks p)[i]? := by
    intro r hr i hi
    rw [length_toBlocks, hp.1] at hi
    rw [getElem?_toBlocks r i (by rw [hr.1]; exact hi), getElem?_toBlocks p i (by rw [hp.1]; exact hi), hr.2 i hi, hp.2 i hi]
  have hb : toBlocks q = toBlocks p := by
    apply List.ext_getElem?
    intro i
    by_cases hi : i < (toBlocks p).length
    · exact key q hq i hi
    · have hl : (toBlocks q).length = (toBlocks p).length := by rw [length_toBlocks, length_toBlocks, hp.1, hq.1]
      rw [List.getElem?_eq_none (by omega), List.getElem?_eq_none (by omega)]
  rw [← ofBlocks_toBlocks p (by rw [hp.1]; exact h), ← hb, ofBlocks_toBlocks q (by rw [hq.1]; exact h)]

theorem codec_eq_of_isCipherOf {f : Bytes8 → Bytes8 → Bytes8} {ks : Bytes8} {input p : List Byte}
    (h : input.length % 8 = 0) (hp : IsCipherOf f ks input p) : (codec f ks input).2 = p :=
  isCipherOf_unique h (codec_isCipherOf f ks input h) hp

/-- The inverse law of R5, for one block. -/
@[simp] theorem bcD_bcE (k b : Bytes8) : Config.bcD k (Config.bcE k b) = b := by simp [Config.bcD, Config.bcE]

/-- The other half of the inverse law of R5. -/
@[simp] theorem bcE_bcD (k b : Bytes8) : Config.bcE k (Config.bcD k b) = b := by simp [Config.bcD, Config.bcE]

theorem codecBlocks_dec_enc (ks : Bytes8) (l : List Bytes8) :
    (codecBlocks Config.bcD ks (codecBlocks Config.bcE ks l).2).2 = l := by
  induction l generalizing ks with
  | nil => rfl
  | cons b l ih => simp only [codecBlocks, bcD_bcE, ih]

/-- A decryption pass over an encryption pass from the same `KeyState` (R84). -/
theorem codec_dec_enc (ks : Bytes8) (p : List Byte) (h : p.length % 8 = 0) :
    (codec Config.bcD ks (codec Config.bcE ks p).2).2 = p := by
  simp only [codec, toBlocks_ofBlocks, codecBlocks_dec_enc]
  exact ofBlocks_toBlocks p h

end Sys2Proof.Machine
end

