-- ==== Sys2Proof/Laws/Exec.lean ====
section
/-! SUPPORT. Everything a command can do, said once: `exec_next` takes apart any command that answers a next state into
the effects before its end (`Effect`) and its end (`raise` or `finish`). -/

namespace Sys2Proof.Machine

/-- What command `i` may do to state `s` before it ends, leaving `s1`: which fields it may write, and how (R12, R16,
R10, R43). -/
structure Effect (i : Instr) (s s1 : State) : Prop where
  /-- Only these eight fields. -/
  frame : s1 = { s with keyState := s1.keyState, result := s1.result, hdrMagic := s1.hdrMagic, hdrLength := s1.hdrLength,
                        hdrCheck := s1.hdrCheck, hdrVersion := s1.hdrVersion, ibuf := s1.ibuf }
  keyState : (i.opc = 0x01#8 ∧ s1.keyState = Config.ksSeed) ∨ ∃ n, s1.keyState = nextKeyState^[n] s.keyState
  keyState_same : i.opc.toNat ∉ [0x01, 0x02, 0x03, 0x04, 0x0A, 0x0B, 0x0C] → s1.keyState = s.keyState
  result_same : i.opc.toNat ∉ [0x05, 0x06, 0x08, 0x0D] → s1.result = s.result
  hdr_same : i.opc.toNat ∉ [0x0B, 0x0E] →
    s1.hdrMagic = s.hdrMagic ∧ s1.hdrLength = s.hdrLength ∧ s1.hdrCheck = s.hdrCheck
  hdrVersion_same : i.opc ≠ 0x0B#8 → s1.hdrVersion = s.hdrVersion
  ibuf : s1.ibuf = s.ibuf ∨
    (i.opc = 0x07#8 ∧ 12 ≤ s.inLen.toNat ∧ s.inLen.toNat ≤ Config.bufCap ∧
      ∃ v, v.length = 4 ∧ s1.ibuf = s.ibuf.write 8 v)

/-- How a command ends: an error, before which neither `RESULT` nor `IBUF` was written, or a success with an output that
fits `OBUF`. -/
def EndsIn (s s1 t : State) : Prop :=
  (∃ e, e ≠ .ioFailure ∧ t = s1.raise e ∧ s1.result = s.result ∧ s1.ibuf = s.ibuf) ∨
    ∃ out warn, out.length ≤ Config.bufCap ∧ t = s1.finish out warn

/-- A state with no effect yet. -/
theorem Effect.refl (i : Instr) (s : State) : Effect i s s where
  frame := rfl
  keyState := .inr ⟨0, rfl⟩
  keyState_same _ := rfl
  result_same _ := rfl
  hdr_same _ := ⟨rfl, rfl, rfl⟩
  hdrVersion_same _ := rfl
  ibuf := .inl rfl

/-- The effect of a command that writes `RESULT` alone. -/
theorem Effect.ofResult {i : Instr} (s : State) (v : Word) (h : i.opc.toNat ∈ [0x05, 0x06, 0x08, 0x0D]) :
    Effect i s { s with result := v } :=
  { Effect.refl i s with frame := rfl, result_same := fun hn => absurd h hn }

/-- The effect of a command that steps the key stream alone. -/
theorem Effect.ofSteps {i : Instr} (s : State) (k : Bytes8) (n : Nat) (hk : k = nextKeyState^[n] s.keyState)
    (h : i.opc.toNat ∈ [0x01, 0x02, 0x03, 0x04, 0x0A, 0x0B, 0x0C]) : Effect i s { s with keyState := k } :=
  { Effect.refl i s with frame := rfl, keyState := .inr ⟨n, hk⟩, keyState_same := fun hn => absurd h hn }

/-- The end of a command that succeeds. -/
theorem endsIn_finish {i : Instr} {s s1 : State} {out : List Byte} {warn : Bool} (h : Effect i s s1)
    (hl : out.length ≤ Config.bufCap) : ∃ s2, Effect i s s2 ∧ EndsIn s s2 (s1.finish out warn) :=
  ⟨s1, h, .inr ⟨out, warn, hl, rfl⟩⟩

/-- An error raised before any effect. -/
theorem endsIn_raise {i : Instr} {s t : State} (e : ErrorKind) (he : e ≠ .ioFailure)
    (h : Host.Outcome.next (σ := State) (φ := Fault) (ρ := Refusal) (s.raise e) = .next t) :
    ∃ s1, Effect i s s1 ∧ EndsIn s s1 t := by
  cases h
  exact ⟨s, Effect.refl i s, .inl ⟨e, he, rfl, rfl, rfl⟩⟩

/-- The length of a text made by `unescape` (R135: at most one output byte per input byte). -/
theorem length_unescapeFrom_le (prev : Option Byte) (d : List Byte) : (unescapeFrom prev d).length ≤ d.length := by
  induction d generalizing prev with
  | nil => simp [unescapeFrom]
  | cons b d ih =>
    simp only [unescapeFrom]
    split
    · split
      · exact Nat.le_succ_of_le (ih _)
      · simpa using ih _
    · simpa using ih _

theorem length_slice_le (s : List Byte) (a n : Nat) : (slice s a n).length ≤ s.length - a := by
  simp only [slice, List.length_take, List.length_drop]
  omega

theorem length_applyChecksum {b : List Byte} {n : Nat} (hb : b.length = n) (h : 12 ≤ n) :
    (applyChecksum b).length = n := by
  unfold applyChecksum
  split
  · exact hb
  · exact length_splice_of_eq hb (by simp only [checkField, length_toBe32]; omega)

theorem length_cfgBuild (p : List Byte) (magic version : Word) : (cfgBuild p magic version).length = p.length + 24 := by
  have h0 : (List.replicate Config.cfgHdr 0#8 ++ p).length = p.length + 24 := by
    simp only [List.length_append, List.length_replicate, Config.cfgHdr]
    omega
  exact length_applyChecksum
    (length_splice_of_eq (length_splice_of_eq (length_splice_of_eq h0 (by simp only [length_toBe32]; omega)) (by simp only [length_toBe32]; omega))
      (by simp only [length_toBe32]; omega)) (by omega)

theorem le_ceil4 (n : Nat) : n ≤ ceil4 n := by simp only [ceil4]; omega

theorem ceil4_le (n : Nat) (h : n ≤ 65536) : ceil4 n ≤ 65536 := by simp only [ceil4]; omega

theorem length_nvFields (magic : Word) (f1 : Byte) (f2 data : List Byte) (h2 : f2.length = 10) :
    (nvFields magic f1 f2 data).length = ceil4 (20 + data.length) := by
  have hc := le_ceil4 (20 + data.length)
  have h0 : (List.replicate Config.nvHdr 0#8 ++ data ++
      List.replicate (ceil4 (Config.nvHdr + data.length) - (Config.nvHdr + data.length)) Config.nvPad).length =
      ceil4 (20 + data.length) := by
    simp only [List.length_append, List.length_replicate, Config.nvHdr]
    omega
  exact length_splice_of_eq (length_splice_of_eq (length_splice_of_eq (length_splice_of_eq h0 (by simp only [length_toBe32]; omega))
    (by simp only [length_toBe32]; omega)) (by simp only [List.length_singleton]; omega)) (by rw [h2]; omega)

theorem length_nvBuild (crc8 : List Byte → Byte) (magic : Word) (f1 : Byte) (f2 data : List Byte) (h2 : f2.length = 10)
    (hd : data.length ≤ 65516) : (nvBuild crc8 magic f1 f2 data).length = 65536 := by
  have hl := length_nvFields magic f1 f2 data h2
  have hc := le_ceil4 (20 + data.length)
  have hu := ceil4_le (20 + data.length) (by omega)
  unfold nvBuild
  simp only [List.length_append, List.length_replicate]
  rw [length_splice _ 8 _ (by rw [List.length_singleton, hl]; omega), hl]
  simp only [Config.nvHdr, Config.nvImage]
  omega

@[simp] theorem length_nvField2 : Config.nvField2.length = 10 := by simp [Config.nvField2]

theorem length_escape (t : List Byte) : (escape t).length = t.length := by simp [escape]

/-- Every name of the table has 1 to 16 bytes (R5). -/
theorem length_registry_name (r : Config.RegistryRow) (h : r ∈ Config.registry) :
    1 ≤ r.name.length ∧ r.name.length ≤ 16 := by
  simp only [Config.registry, List.mem_append, List.mem_cons, List.mem_map, List.not_mem_nil, or_false] at h
  rcases h with (rfl | rfl) | ⟨x, _, rfl⟩
  · decide
  · decide
  · simp only [Config.rowOf, List.length_map, List.length_cons, List.length_take, Config.nameMax]
    omega

theorem length_modelName (m : Word) :
    1 ≤ (modelName Config.registry m).length ∧ (modelName Config.registry m).length ≤ 16 := by
  unfold modelName
  split
  · rename_i r hr
    exact length_registry_name r (List.mem_of_find?_eq_some hr)
  · decide

/-- A cipher pass over the input, taken apart. -/
theorem cipherPass_next {f : Bytes8 → Bytes8 → Bytes8} {s t : State} (h : cipherPass f s = .next t) :
    (t = s.raise .tooLarge ∧ Config.bufCap < s.inLen.toNat) ∨
    (t = s.raise .invalidLength ∧ s.inLen.toNat ≤ Config.bufCap ∧ s.inLen.toNat % 8 ≠ 0) ∨
    ∃ input, s.HasInput input ∧ s.inLen.toNat ≤ Config.bufCap ∧ s.inLen.toNat % 8 = 0 ∧
      t = { s with keyState := (codec f s.keyState input).1 }.finish (codec f s.keyState input).2 false := by
  unfold cipherPass at h
  split at h
  · rename_i hc
    cases h
    exact .inl ⟨rfl, (overCapacity_iff _).1 hc⟩
  · rename_i hc
    have hc := (overCapacity_eq_false_iff _).1 (Bool.eq_false_iff.2 hc)
    split at h
    · rename_i h8
      cases h
      exact .inr (.inl ⟨rfl, hc, h8⟩)
    · rename_i h8
      obtain ⟨input, hi, hk⟩ := withInput_next h
      cases hk
      exact .inr (.inr ⟨input, hi, hc, not_not.1 h8, rfl⟩)

/-- The effect of a cipher command. -/
theorem cipherPass_effect {f : Bytes8 → Bytes8 → Bytes8} {i : Instr} {s t : State}
    (ho : i.opc.toNat ∈ [0x01, 0x02, 0x03, 0x04, 0x0A, 0x0B, 0x0C]) (h : cipherPass f s = .next t) :
    ∃ s1, Effect i s s1 ∧ EndsIn s s1 t := by
  rcases cipherPass_next h with ⟨rfl, _⟩ | ⟨rfl, _⟩ | ⟨input, hi, hc, _, rfl⟩
  · exact ⟨s, Effect.refl i s, .inl ⟨_, by decide, rfl, rfl, rfl⟩⟩
  · exact ⟨s, Effect.refl i s, .inl ⟨_, by decide, rfl, rfl, rfl⟩⟩
  · refine endsIn_finish (Effect.ofSteps s _ _ (codec_keyState f s.keyState input) ho) ?_
    rw [length_codec]
    have := hi.1
    omega

/-- Every command that answers a next state had an effect it may have, and ended in one of the two ways. -/
theorem exec_next {i : Instr} {s t : State} (h : exec i s = .next t) : ∃ s1, Effect i s s1 ∧ EndsIn s s1 t := by
  cases i with
  | ksReseed fl =>
    cases h
    exact endsIn_finish (s1 := { s with keyState := Config.ksSeed })
      { Effect.refl _ s with
        frame := rfl, keyState := .inl ⟨rfl, rfl⟩, keyState_same := fun hn => absurd (by simp [Instr.opc]) hn }
      (Nat.zero_le _)
  | ksNext fl =>
    cases h
    exact endsIn_finish (Effect.ofSteps s _ 1 rfl (by simp [Instr.opc]))
      (Nat.le_trans (by simp) nvImage_le_bufCap)
  | bcEnc fl => exact cipherPass_effect (by simp [Instr.opc]) h
  | bcDec fl => exact cipherPass_effect (by simp [Instr.opc]) h
  | cfgDecrypt fl => exact cipherPass_effect (by simp [Instr.opc]) h
  | csCalc fl =>
    simp only [exec, execCsCalc] at h
    split at h
    · exact endsIn_raise _ (by decide) h
    · obtain ⟨input, _, hk⟩ := withInput_next h
      cases hk
      exact endsIn_finish (Effect.ofResult s _ (by simp [Instr.opc])) (Nat.zero_le _)
  | csVerify fl =>
    simp only [exec, execCsVerify] at h
    split at h
    · exact endsIn_raise _ (by decide) h
    · obtain ⟨input, _, hk⟩ := withInput_next h
      cases hk
      exact endsIn_finish (Effect.ofResult s _ (by simp [Instr.opc])) (Nat.zero_le _)
  | csApply fl =>
    simp only [exec, execCsApply] at h
    split at h
    · exact endsIn_raise _ (by decide) h
    · rename_i hc
      split at h
      · exact endsIn_raise _ (by decide) h
      · rename_i hn
        obtain ⟨input, hi, hk⟩ := withInput_next h
        split at hk
        · cases hk
          exact ⟨s, Effect.refl _ s, .inr ⟨_, _, Nat.zero_le _, rfl⟩⟩
        · rename_i he
          cases hk
          have h1 := hi.1
          have h2 : 1 ≤ input.length := List.length_pos_of_ne_nil (by simpa using he)
          exact endsIn_finish (s1 := { s with ibuf := s.ibuf.write 8 (checkField input) })
            { Effect.refl _ s with
              frame := rfl,
              ibuf := .inr ⟨rfl, by omega, (overCapacity_eq_false_iff _).1 (Bool.eq_false_iff.2 hc), _, rfl, rfl⟩ }
            (Nat.zero_le _)
  | mgDerive fl =>
    simp only [exec, execMgDerive] at h
    split at h
    · exact endsIn_raise _ (by decide) h
    · obtain ⟨input, _, hk⟩ := withInput_next h
      cases hk
      exact endsIn_finish (Effect.ofResult s _ (by simp [Instr.opc])) (Nat.zero_le _)
  | mgName fl =>
    cases h
    exact ⟨s, Effect.refl _ s,
      .inr ⟨_, _, Nat.le_trans (length_modelName _).2 (Nat.le_trans (by decide) nvImage_le_bufCap), rfl⟩⟩
  | cfgExtract fl =>
    simp only [exec, execCfgExtract] at h
    split at h
    · exact endsIn_raise _ (by decide) h
    · rename_i hc
      have hc := (overCapacity_eq_false_iff _).1 (Bool.eq_false_iff.2 hc)
      split at h
      · exact endsIn_raise _ (by decide) h
      · obtain ⟨input, hi, hk⟩ := withInput_next h
        have he : Effect (.cfgExtract fl) s
            ({ s with keyState := (codec Config.bcD s.keyState input).1 }.putCfgHeader
              (codec Config.bcD s.keyState input).2) := by
          constructor
          · unfold State.putCfgHeader
            split <;> rfl
          · exact .inr ⟨input.length / 8, by rw [putCfgHeader_keyState]; exact codec_keyState _ _ _⟩
          · exact fun hn => absurd (by simp [Instr.opc]) hn
          · exact fun _ => putCfgHeader_result _ _
          · exact fun hn => absurd (by simp [Instr.opc]) hn
          · exact fun hn => absurd rfl hn
          · exact .inl (putCfgHeader_ibuf _ _)
        split at hk
        · cases hk
          exact ⟨_, he, .inl ⟨_, by decide, rfl, putCfgHeader_result _ _, putCfgHeader_ibuf _ _⟩⟩
        · split at hk
          · cases hk
            exact ⟨_, he, .inl ⟨_, by decide, rfl, putCfgHeader_result _ _, putCfgHeader_ibuf _ _⟩⟩
          · cases hk
            refine ⟨_, he, .inr ⟨_, _, Nat.le_trans (length_slice_le _ _ _) ?_, rfl⟩⟩
            rw [length_codec]
            have := hi.1
            omega
  | cfgWrap fl =>
    simp only [exec, execCfgWrap] at h
    split at h
    · exact endsIn_raise _ (by decide) h
    · split at h
      · exact endsIn_raise _ (by decide) h
      · split at h
        · exact endsIn_raise _ (by decide) h
        · rename_i hm
          obtain ⟨input, hi, hk⟩ := withInput_next h
          split at hk
          · exact endsIn_raise _ (by decide) hk
          · cases hk
            refine endsIn_finish (Effect.ofSteps s _ _ (codec_keyState _ _ _) (by simp [Instr.opc])) ?_
            rw [length_codec, length_cfgBuild]
            have := hi.1
            have := cfgImage_le_bufCap
            omega
  | nvCrc8 fl =>
    simp only [exec, execNvCrc8] at h
    split at h
    · exact endsIn_raise _ (by decide) h
    · split at h
      · exact endsIn_raise _ (by decide) h
      · obtain ⟨input, _, hk⟩ := withInput_next h
        cases hk
        exact endsIn_finish (Effect.ofResult s _ (by simp [Instr.opc])) (Nat.zero_le _)
  | nvExtract fl =>
    simp only [exec, execNvExtract] at h
    split at h
    · exact endsIn_raise _ (by decide) h
    · rename_i hc
      have hc := (overCapacity_eq_false_iff _).1 (Bool.eq_false_iff.2 hc)
      split at h
      · exact endsIn_raise _ (by decide) h
      · obtain ⟨m, hi, hk⟩ := withInput_next h
        have he : Effect (.nvExtract fl) s
            { s with hdrMagic := nvMagicOf m, hdrLength := nvLengthOf m, hdrCheck := (nvCrcOf m).setWidth 32 } :=
          { Effect.refl _ s with frame := rfl, hdr_same := fun hn => absurd (by simp [Instr.opc]) hn }
        split at hk
        · cases hk
          exact ⟨_, he, .inl ⟨_, by decide, rfl, rfl, rfl⟩⟩
        · split at hk
          · cases hk
            exact ⟨_, he, .inl ⟨_, by decide, rfl, rfl, rfl⟩⟩
          · split at hk
            · cases hk
              exact ⟨_, he, .inl ⟨_, by decide, rfl, rfl, rfl⟩⟩
            · cases hk
              refine ⟨_, he, .inr ⟨_, _, Nat.le_trans (length_unescapeFrom_le _ _)
                (Nat.le_trans (length_slice_le _ _ _) ?_), rfl⟩⟩
              have := hi.1
              omega
  | nvWrap fl =>
    simp only [exec, execNvWrap] at h
    split at h
    · exact endsIn_raise _ (by decide) h
    · split at h
      · exact endsIn_raise _ (by decide) h
      · rename_i hm
        obtain ⟨input, hi, hk⟩ := withInput_next h
        cases hk
        refine ⟨s, Effect.refl _ s, .inr ⟨_, _, ?_, rfl⟩⟩
        rw [length_nvBuild _ _ _ _ _ length_nvField2
          (by rw [length_escape]; have := hi.1; simp only [Config.nvDataMax] at hm; omega)]
        exact nvImage_le_bufCap

end Sys2Proof.Machine
end

