-- ==== Sys2Proof/Laws/PerInstr.lean ====
section
/-! SUPPORT. A property of every command as syntax, one lemma per constructor: its word is legal. -/

namespace Sys2Proof.Laws.CommandWord

/-- The word of a command has no reserved bit set and an assigned operation code (R50, R51), whatever its flags. -/
def Statement (i : Instr) : Prop := i.wf = true ∧ wordWf (encode i) = true

/-- Eight flag values cover a constructor. -/
theorem of_flags {c : CmdFlags → Instr}
    (h : ∀ a b d : Bool, (c ⟨a, b, d⟩).wf = true ∧ wordWf (encode (c ⟨a, b, d⟩)) = true) (fl : CmdFlags) :
    Statement (c fl) := h fl.f fl.mv fl.vv

theorem ksReseed (fl : CmdFlags) : Statement (.ksReseed fl) := of_flags (by decide) fl

theorem ksNext (fl : CmdFlags) : Statement (.ksNext fl) := of_flags (by decide) fl

theorem bcEnc (fl : CmdFlags) : Statement (.bcEnc fl) := of_flags (by decide) fl

theorem bcDec (fl : CmdFlags) : Statement (.bcDec fl) := of_flags (by decide) fl

theorem csCalc (fl : CmdFlags) : Statement (.csCalc fl) := of_flags (by decide) fl

theorem csVerify (fl : CmdFlags) : Statement (.csVerify fl) := of_flags (by decide) fl

theorem csApply (fl : CmdFlags) : Statement (.csApply fl) := of_flags (by decide) fl

theorem mgDerive (fl : CmdFlags) : Statement (.mgDerive fl) := of_flags (by decide) fl

theorem mgName (fl : CmdFlags) : Statement (.mgName fl) := of_flags (by decide) fl

theorem cfgDecrypt (fl : CmdFlags) : Statement (.cfgDecrypt fl) := of_flags (by decide) fl

theorem cfgExtract (fl : CmdFlags) : Statement (.cfgExtract fl) := of_flags (by decide) fl

theorem cfgWrap (fl : CmdFlags) : Statement (.cfgWrap fl) := of_flags (by decide) fl

theorem nvCrc8 (fl : CmdFlags) : Statement (.nvCrc8 fl) := of_flags (by decide) fl

theorem nvExtract (fl : CmdFlags) : Statement (.nvExtract fl) := of_flags (by decide) fl

theorem nvWrap (fl : CmdFlags) : Statement (.nvWrap fl) := of_flags (by decide) fl

end Sys2Proof.Laws.CommandWord
end

