-- ==== Sys2Proof/Tests/Slice0.lean ====
section
/-! SUPPORT. Tests of the model on the worked examples of spec/95_test_vectors.md and of the rules, and one witness for
the hypotheses of each statement that has some. The expected values are the spec's; T1, T2, T3 are its example-only
instances of the open parameters (spec/95_test_vectors.md section 0), given here to the pure functions alone. -/

namespace Sys2Proof.Tests

open Sys2Proof.Machine

/-! ### Helpers -/

/-- After reset, `LOAD bs` (R61). -/
def loaded (bs : List Byte) : State :=
  { State.reset with ibuf := Mem.cells 0 bs, inLen := BitVec.ofNat 32 bs.length }

/-- After reset, with `n` in `IN_LEN` and no byte written. -/
def withLen (n : Word) : State := { State.reset with inLen := n }

/-- What a test reads of an outcome: the next state's view. -/
def after {α : Type} (view : State → α) : Host.Outcome State Fault Refusal → Option α
  | .next t => some (view t)
  | .fault _ => none
  | .refused _ => none

/-- The output bytes of a state, `OBUF[0 .. OUT_LEN)`. -/
def output (s : State) : Option (List Byte) := s.obuf.bytes 0 s.outLen.toNat

/-- No flag. -/
def noFlags : CmdFlags := ⟨false, false, false⟩

/-- The force flag alone. -/
def force : CmdFlags := ⟨true, false, false⟩

/-- The toy cipher T1. -/
def toyCipher (k b : Bytes8) : Bytes8 :=
  ⟨k.b0 ^^^ b.b0, k.b1 ^^^ b.b1, k.b2 ^^^ b.b2, k.b3 ^^^ b.b3, k.b4 ^^^ b.b4, k.b5 ^^^ b.b5, k.b6 ^^^ b.b6, k.b7 ^^^ b.b7⟩

/-- One bit of the toy CRC-8 T2. -/
def toyCrcBit (c : Byte) : Byte := if c.getLsbD 7 then (c <<< 1) ^^^ 0x07#8 else c <<< 1

/-- The toy CRC-8 T2. -/
def toyCrc (bs : List Byte) : Byte :=
  bs.foldl (fun c b =>
    toyCrcBit (toyCrcBit (toyCrcBit (toyCrcBit (toyCrcBit (toyCrcBit (toyCrcBit (toyCrcBit (c ^^^ b))))))))) 0#8

/-- `NV_FIELD2` of T3. -/
def toyField2 : List Byte := List.replicate 10 0#8

/-! ### Well-formed words (R50, R54) and decoding (R51, R61) -/

theorem test_wf_refuses_reserved_bit_11 : wordWf 0x0000080B#32 = false := by decide

theorem test_wf_refuses_reserved_bit_31 : wordWf 0x8000000B#32 = false := by decide

theorem test_wf_refuses_opcode_zero : wordWf 0x00000000#32 = false := by decide

theorem test_wf_refuses_opcode_0x10 : wordWf 0x00000010#32 = false := by decide

theorem test_wf_accepts_highest_word : wordWf 0x0000070F#32 = true := by decide

theorem test_decode_names_each_illegal_word :
    decode 0x0000080B#32 = .error .reservedBits ∧ decode 0x8000000B#32 = .error .reservedBits ∧
    decode 0x00000000#32 = .error (.reservedOpcode 0x00#8) ∧ decode 0x00000010#32 = .error (.reservedOpcode 0x10#8) ∧
    decode 0x000000FF#32 = .error (.reservedOpcode 0xFF#8) := by decide

theorem test_decode_key_stream_words :
    decode 0x00000001#32 = .ok (.ksReseed noFlags) ∧ decode 0x00000702#32 = .ok (.ksNext ⟨true, true, true⟩) := by decide

theorem test_decode_cipher_words :
    decode 0x00000003#32 = .ok (.bcEnc noFlags) ∧ decode 0x00000004#32 = .ok (.bcDec noFlags) := by decide

theorem test_decode_checksum_words :
    decode 0x00000005#32 = .ok (.csCalc noFlags) ∧ decode 0x00000006#32 = .ok (.csVerify noFlags) ∧
    decode 0x00000007#32 = .ok (.csApply noFlags) := by decide

theorem test_decode_registry_words :
    decode 0x00000008#32 = .ok (.mgDerive noFlags) ∧ decode 0x00000209#32 = .ok (.mgName ⟨false, true, false⟩) := by decide

theorem test_decode_configuration_words :
    decode 0x0000000A#32 = .ok (.cfgDecrypt noFlags) ∧ decode 0x0000010B#32 = .ok (.cfgExtract force) ∧
    decode 0x0000060C#32 = .ok (.cfgWrap ⟨false, true, true⟩) := by decide

theorem test_decode_nvram_words :
    decode 0x0000000D#32 = .ok (.nvCrc8 noFlags) ∧ decode 0x0000010E#32 = .ok (.nvExtract force) ∧
    decode 0x0000040F#32 = .ok (.nvWrap ⟨false, false, true⟩) := by decide

theorem test_encode_examples_of_R61 :
    encode (.ksReseed noFlags) = 0x00000001#32 ∧ encode (.cfgExtract force) = 0x0000010B#32 ∧
    encode (.cfgWrap ⟨false, true, true⟩) = 0x0000060C#32 := by decide

theorem test_table_word_is_decoded : decodeTableWord 32 0x0E = some (.nvExtract noFlags) := by decide

theorem test_fetch_word_runs_first :
    after State.keyState (step (State.reset.withFetchWord 32 0x02)) =
      some ⟨0x56, 0x74, 0x67, 0x72, 0x42, 0x61, 0x6B, 0x00⟩ := by decide

/-! ### Key stream (V-KS) -/

theorem test_ks_next_step_1 :
    after output (exec (.ksNext noFlags) State.reset) =
      some (some [0x56, 0x3A, 0x19, 0xEE, 0x24, 0x13, 0x85, 0xD6]) := by decide

theorem test_ks_next_carries :
    after State.keyState (exec (.ksNext noFlags) { State.reset with
      keyState := ⟨0xFE, 0xFF, 0x67, 0x72, 0x42, 0x61, 0x6B, 0x00⟩ }) =
        some ⟨0x06, 0x00, 0x68, 0x72, 0x42, 0x61, 0x6B, 0x00⟩ ∧
    nextKeyState ⟨0xFE, 0xFF, 0xFF, 0x72, 0x42, 0x61, 0x6B, 0x00⟩ = ⟨0x06, 0x00, 0x00, 0x72, 0x42, 0x61, 0x6B, 0x00⟩ ∧
    keyOf ⟨0x06, 0x76, 0x67, 0x72, 0x42, 0x61, 0x6B, 0x00⟩ = ⟨0x06, 0x3B, 0x99, 0xEE, 0x24, 0x13, 0x85, 0xD6⟩ := by decide

theorem test_ks_reseed :
    after State.keyState (exec (.ksReseed noFlags) { State.reset with
      keyState := ⟨0x66, 0x74, 0x67, 0x72, 0x42, 0x61, 0x6B, 0x00⟩, outLen := 8 }) = some Config.ksSeed := by decide

/-! ### Block cipher (V-BC) -/

theorem test_codec_toy_two_equal_blocks :
    codec toyCipher Config.ksSeed
      [0x41, 0x42, 0x43, 0x44, 0x45, 0x46, 0x47, 0x48, 0x41, 0x42, 0x43, 0x44, 0x45, 0x46, 0x47, 0x48] =
    (⟨0x5E, 0x74, 0x67, 0x72, 0x42, 0x61, 0x6B, 0x00⟩,
      [0x17, 0x78, 0x5A, 0xAA, 0x61, 0x55, 0xC2, 0x9E, 0x1F, 0x78, 0x5A, 0xAA, 0x61, 0x55, 0xC2, 0x9E]) := by decide

theorem test_bc_enc_unaligned :
    after (fun t => (t.status, t.outLen, t.keyState)) (exec (.bcEnc noFlags) (loaded (List.replicate 7 0x41))) =
      some (0x01#32, 0#32, Config.ksSeed) := by decide

theorem test_bc_enc_uses_the_key_of_its_block :
    after State.obuf (exec (.bcEnc noFlags) (loaded (List.replicate 16 0x41))) =
      some (Mem.cells 0
        ((Config.bcE ⟨0x56, 0x3A, 0x19, 0xEE, 0x24, 0x13, 0x85, 0xD6⟩
            ⟨0x41, 0x41, 0x41, 0x41, 0x41, 0x41, 0x41, 0x41⟩).toList ++
          (Config.bcE ⟨0x5E, 0x3A, 0x19, 0xEE, 0x24, 0x13, 0x85, 0xD6⟩
            ⟨0x41, 0x41, 0x41, 0x41, 0x41, 0x41, 0x41, 0x41⟩).toList)) := by rfl

theorem test_bc_dec_unaligned :
    after State.status (exec (.bcDec noFlags) (loaded (List.replicate 9 0x41))) = some 0x01#32 := by decide

theorem test_bc_dec_empty_makes_no_step :
    after (fun t => (t.status, t.outLen, t.keyState)) (exec (.bcDec noFlags) (loaded [])) =
      some (0#32, 0#32, Config.ksSeed) := by decide

/-! ### Checksum (V-CS) -/

theorem test_checksum_vectors :
    checksum [] = 0xFFFFFFFF#32 ∧ checksum [0x01] = 0x0000FEFF#32 ∧ checksum [0x12, 0x34, 0x56] = 0x000097CB#32 ∧
    checksum [0xFF, 0xFF, 0x01, 0x00] = 0x0000FEFF#32 ∧
    checksum [0x00, 0x01, 0xF2, 0x03, 0xF4, 0xF5, 0xF6, 0xF7] = 0x0000220D#32 := by decide

theorem test_cs_calc : after State.result (exec (.csCalc noFlags) (loaded [0x12, 0x34])) = some 0x0000EDCB#32 := by decide

theorem test_cs_verify :
    after State.result (exec (.csVerify noFlags) (loaded
      [0x62, 0x74, 0x49, 0x15, 0, 0, 0, 0x18, 0, 0, 0x54, 0x5D, 0, 0, 0, 1, 0, 0, 0, 0, 0, 0, 0, 0])) = some 1#32 := by decide

theorem test_cs_apply_odd_length :
    after (fun t => t.ibuf.bytes 0 13) (exec (.csApply noFlags) (loaded
      [1, 2, 3, 4, 5, 6, 7, 8, 0xDE, 0xAD, 0xBE, 0xEF, 0x7F])) =
      some (some [1, 2, 3, 4, 5, 6, 7, 8, 0, 0, 0x70, 0xEB, 0x7F]) := by decide

theorem test_cs_apply_short :
    after (fun t => (t.status, t.ibuf)) (exec (.csApply noFlags) (loaded (List.replicate 11 0))) =
      some (0x11#32, Mem.cells 0 (List.replicate 11 0)) := by decide

/-! ### Registry (V-MG) -/

theorem test_mg_derive_source_vector :
    after State.result (exec (.mgDerive noFlags) (loaded [0x57, 0x4E, 0x44, 0x52, 0x34, 0x35, 0x30, 0x30, 0x76, 0x32])) =
      some 0x62744915#32 := by decide

theorem test_derive_magic_cuts_at_16 :
    deriveMagic ((List.range 19).map fun i => BitVec.ofNat 8 (0x41 + i)) = 0x10000000#32 := by decide

theorem test_mg_name_known :
    after output (exec (.mgName noFlags) { State.reset with argMagic := 0x62744915#32 }) =
      some (some [0x57, 0x4E, 0x44, 0x52, 0x34, 0x35, 0x30, 0x30, 0x76, 0x32]) := by decide

/-- T4's table: a magic that is not in it. -/
theorem test_model_name_unmapped :
    modelName [⟨Config.unknownName, 0#32⟩, ⟨Config.wndrName, 0x62744915#32⟩] 0x12345678#32 =
      [0x75, 0x6E, 0x6B, 0x6E, 0x6F, 0x77, 0x6E] := by decide

/-! ### Configuration (V-CFG) -/

/-- The plain image of V-CFG-2. -/
def image2 : List Byte :=
  [0x62, 0x74, 0x49, 0x15, 0, 0, 0, 0x20, 0, 0, 0x41, 0x3D, 0, 1, 2, 3, 0, 0, 0, 0, 0, 0, 0, 0,
    0x41, 0x42, 0x43, 0x44, 0x45, 0x46, 0x47, 0x48]

/-- The plain image of V-CFG-8: it declares 16 payload bytes and has 8. -/
def image8 : List Byte :=
  [0x62, 0x74, 0x49, 0x15, 0, 0, 0, 0x28, 0, 0, 0x41, 0x35, 0, 1, 2, 3, 0, 0, 0, 0, 0, 0, 0, 0,
    0x41, 0x42, 0x43, 0x44, 0x45, 0x46, 0x47, 0x48]

theorem test_cfg_build :
    cfgBuild [0x41, 0x42, 0x43, 0x44, 0x45, 0x46, 0x47, 0x48] 0x62744915#32 0x00010203#32 = image2 := by decide

theorem test_cfg_length_step :
    cfgLengthStep 65536 false image2 = some (8, false) ∧ cfgLengthStep 65536 false image8 = none ∧
    cfgLengthStep 65536 true image8 = some (8, true) ∧ cfgLengthStep 65536 true (image2.set 7 0x1C) = some (4, true) ∧
    cfgLengthStep 65536 true (image2.set 7 0x10) = some (8, true) ∧
    cfgLengthStep 65536 true (List.replicate 16 0) = some (0, true) := by decide

theorem test_cfg_wrap_needs_both_options :
    after State.status (exec (.cfgWrap ⟨false, true, false⟩) (loaded (List.replicate 5 0))) = some 0x07#32 := by decide

theorem test_cfg_decrypt_unaligned :
    after State.status (exec (.cfgDecrypt force) (loaded (List.replicate 12 0))) = some 0x01#32 := by decide

theorem test_cfg_extract_empty :
    after (fun t => (t.status, t.outLen)) (exec (.cfgExtract noFlags) (loaded [])) = some (0x02#32, 0#32) ∧
    after (fun t => (t.status, t.outLen)) (exec (.cfgExtract force) (loaded [])) = some (0x100#32, 0#32) := by decide

/-! ### NVRAM (V-NV) -/

/-- V-NV-3's first 24 bytes, `G`. -/
def imageG : List Byte :=
  [0x11, 0x22, 0x33, 0x44, 0, 0, 0, 0x18, 0x6A, 1, 0, 0, 0, 0, 0, 0, 0, 0, 0, 0, 0x61, 0x3D, 0x31, 0]

theorem test_toy_crc_check_value : toyCrc [0x31, 0x32, 0x33, 0x34, 0x35, 0x36, 0x37, 0x38, 0x39] = 0xF4#8 := by decide +kernel

theorem test_nv_build_example :
    (nvBuild toyCrc 0x11223344#32 0x01#8 toyField2 (escape [0x61, 0x3D, 0x31, 0x0A, 0x62, 0x3D, 0x32])).take 29 =
      [0x11, 0x22, 0x33, 0x44, 0, 0, 0, 0x1C, 0x13, 1, 0, 0, 0, 0, 0, 0, 0, 0, 0, 0,
        0x61, 0x3D, 0x31, 0, 0x62, 0x3D, 0x32, 0, 0xFF] := by decide +kernel

theorem test_nv_crc_coverage :
    nvCrcCalc toyCrc imageG 24 24 = 0x6A#8 ∧ nvCrcCalc toyCrc imageG 32 24 = 0x6A#8 ∧
    nvCrcCalc toyCrc imageG 16 24 = 0xDF#8 ∧ nvCrcCalc toyCrc imageG 5 24 = 0x00#8 := by decide +kernel

theorem test_nv_length_step :
    nvLengthStep false 0x18#32 24 = some (4, false) ∧ nvLengthStep false 0x20#32 24 = none ∧
    nvLengthStep true 0x20#32 24 = some (4, true) ∧ nvLengthStep true 0x10#32 24 = some (4, true) ∧
    nvLengthStep false 0x00010000#32 65536 = some (65516, false) ∧
    nvLengthStep true 0x00010004#32 65540 = some (65516, true) := by decide

theorem test_unescape :
    unescape [0x61, 0, 0, 0x62, 0] = [0x61, 0x0A, 0x62, 0x0A] ∧ unescape [0, 0, 0x61] = [0x0A, 0x61] ∧
    unescape [0x61, 0x0A, 0, 0x62] = [0x61, 0x0A, 0x62] ∧
    unescape [0x61, 0, 0x0A, 0x62] = [0x61, 0x0A, 0x0A, 0x62] := by decide

theorem test_nv_crc8_short : after State.status (exec (.nvCrc8 noFlags) (loaded (imageG.take 19))) = some 0x11#32 := by decide

theorem test_nv_extract_forced :
    after (fun t => (t.status, output t)) (exec (.nvExtract force) (loaded imageG)) =
      some (0#32, some [0x61, 0x3D, 0x31, 0x0A]) := by decide

theorem test_nv_extract_short_even_if_forced :
    after State.status (exec (.nvExtract force) (loaded (imageG.take 19))) = some 0x11#32 := by decide

theorem test_nv_wrap_too_large : after State.status (exec (.nvWrap noFlags) (withLen 65517#32)) = some 0x06#32 := by decide

theorem test_nv_wrap_length : after State.status (exec (.nvWrap force) (loaded [0x01, 0x02])) = some 0#32 := by decide

/-! ### The host (R24, R54, R61) -/

theorem test_illegal_word_before_capacity :
    after (fun t => (t.status, t.cmd)) (step ((withLen 0xFFFFFFFF#32).withFetchWord 32 0)) =
      some (0x10#32, 0#32) := by decide

theorem test_reserved_register_reads_zero :
    after (fun t => t.readReg 11) (hostWriteReg 11 0xDEADBEEF#32 State.reset) = some 0#32 := by decide

theorem test_obuf_ignores_host_writes :
    hostWriteBytes .obuf 0 [0x41] State.reset = .next State.reset := by rfl

theorem test_unwritten_byte_faults :
    exec (.csCalc noFlags) (withLen 1#32) = .fault .unwrittenInput := by rfl

theorem test_read_of_unspecified_byte_is_free :
    after State.seen (hostReadBytes .obuf 0 1 State.reset) =
      some [.bytes .obuf 0 [Config.freeByte 0]] := by rfl

/-! ### Witnesses: for each statement with hypotheses, states and operands that meet them, clause by clause at the edges

`loaded_hasInput` and `encrypted_input` say it once for every input; a witness then only has to give the bytes. -/

/-- After `LOAD bs`, `bs` is the input. -/
theorem loaded_hasInput (bs : List Byte) (h : bs.length < 2 ^ 32) : (loaded bs).HasInput bs :=
  hasInput_of_cells bs rfl (by simp only [loaded, BitVec.toNat_ofNat]; omega)

/-- After `LOAD` of the encryption of `p` from the seed, what the decryption pass gives is `p`. -/
def encrypted (p : List Byte) : State := loaded (codec Config.bcE Config.ksSeed p).2

theorem encrypted_input (p : List Byte) (h : p.length % 8 = 0) (hl : p.length < 2 ^ 32) :
    ∃ input, (encrypted p).HasInput input ∧ IsCipherOf Config.bcD (encrypted p).keyState input p ∧
      (encrypted p).inLen.toNat = p.length := by
  have hc : (codec Config.bcE Config.ksSeed p).2.length = p.length := by rw [length_codec]; omega
  have hi := loaded_hasInput (codec Config.bcE Config.ksSeed p).2 (by omega)
  refine ⟨_, hi, ?_, hi.1.trans hc⟩
  have := codec_isCipherOf Config.bcD Config.ksSeed (codec Config.bcE Config.ksSeed p).2 (by omega)
  rwa [codec_dec_enc _ _ h] at this

/-- Lengths within every capacity. -/
theorem le_bufCap {n : Nat} (h : n ≤ 65536) : n ≤ Config.bufCap := Nat.le_trans h nvImage_le_bufCap

/-- The clause `TooLarge` (capacity) of every command that reads `IBUF`: met wherever `BUF_CAP` is not the largest
32-bit number itself, which R5 does not exclude. -/
theorem witness_over_capacity (h : Config.bufCap < 0xFFFFFFFF) :
    Config.bufCap < (withLen 0xFFFFFFFF#32).inLen.toNat := h

/-- Inputs of 0, 7, 8, 11, 12, 16, 19, 20 and 65536 bytes, each within the capacity. -/
theorem witness_input_lengths :
    ∀ n ∈ [0, 1, 7, 8, 11, 12, 16, 17, 19, 20, 65516, 65517, 65536],
      (loaded (List.replicate n 0x41#8)).HasInput (List.replicate n 0x41#8) ∧
      (loaded (List.replicate n 0x41#8)).inLen.toNat = n ∧ n ≤ Config.bufCap := by
  intro n hn
  have hb : n ≤ 65536 := (by decide : ∀ n ∈ [0, 1, 7, 8, 11, 12, 16, 17, 19, 20, 65516, 65517, 65536], n ≤ 65536) n hn
  have hi := loaded_hasInput (List.replicate n 0x41#8) (by rw [List.length_replicate]; omega)
  exact ⟨hi, by rw [hi.1, List.length_replicate], le_bufCap hb⟩

/-- DecodingIsTotal: words on both sides of each edge. -/
theorem witness_DecodingIsTotal :
    (∀ w ∈ [0x00000000#32, 0x00000010#32, 0x000000FF#32, 0x00000100#32, 0x0000080F#32, 0x80000001#32],
      w.toNat / 2048 ≠ 0 ∨ w.toNat % 256 = 0 ∨ 16 ≤ w.toNat % 256) ∧
    ∀ w ∈ [0x00000001#32, 0x0000000F#32, 0x00000701#32, 0x0000070F#32],
      ¬ (w.toNat / 2048 ≠ 0 ∨ w.toNat % 256 = 0 ∨ 16 ≤ w.toNat % 256) := by simp

theorem witness_DecodeInvertsEncode : encode (.nvWrap ⟨true, true, true⟩) = 0x0000070F#32 := by decide

theorem witness_IllegalWordRaisesIllegalCommand :
    ∀ w ∈ [0x00000000#32, 0x00000700#32, 0x00000010#32, 0x000000FF#32, 0x00000801#32, 0x8000000F#32],
      (State.reset.withFetchWord 32 w.toNat).script = [.wr 0 w] ∧
      (w.toNat % 256 = 0 ∨ 0x10 ≤ w.toNat % 256 ∨ w.toNat / 2048 ≠ 0) := by
  simp [State.withFetchWord, State.reset]

theorem witness_StepRunsDecodedCommand :
    ∀ w ∈ [0x00000001#32, 0x0000070F#32],
      (State.reset.withFetchWord 32 w.toNat).script = [.wr 0 w] ∧ ∃ i, decode w = .ok i := by
  intro w hw
  rcases List.mem_cons.1 hw with rfl | hw
  · exact ⟨rfl, _, rfl⟩
  · obtain rfl := List.mem_singleton.1 hw
    exact ⟨rfl, _, rfl⟩

theorem witness_KeyStreamPeriod : 2097152 ∣ 0 ∧ 2097152 ∣ 2097152 ∧ ¬ 2097152 ∣ 2097151 := by decide

/-- CipherCommandsRunOnePass: a length that is no multiple of 8, and the lengths 0, 8 and 16 that are. -/
theorem witness_CipherCommandsRunOnePass :
    (loaded (List.replicate 7 0x41#8)).inLen.toNat % 8 ≠ 0 ∧ (loaded []).HasInput [] ∧
    (loaded (List.replicate 8 0x41#8)).HasInput (List.replicate 8 0x41#8) ∧
    (loaded (List.replicate 8 0x41#8)).inLen.toNat % 8 = 0 :=
  ⟨by decide, loaded_hasInput [] (by decide), loaded_hasInput _ (by decide), by decide⟩

/-- DecryptionInvertsEncryption: the plain side, and a state with the encrypted input and the same `KeyState`. -/
theorem witness_DecryptionInvertsEncryption :
    (loaded image2).HasInput image2 ∧ image2.length % 8 = 0 ∧ image2.length ≤ Config.bufCap ∧
    (encrypted image2).keyState = (loaded image2).keyState ∧
    (encrypted image2).HasInput (codec Config.bcE Config.ksSeed image2).2 :=
  ⟨loaded_hasInput _ (by decide), by decide, le_bufCap (by decide), rfl,
    loaded_hasInput _ (by rw [length_codec]; decide)⟩

theorem witness_CsCalcFoldsWordSum :
    (loaded []).HasInput [] ∧ (loaded [0x12, 0x34, 0x56]).HasInput [0x12, 0x34, 0x56] :=
  ⟨loaded_hasInput _ (by decide), loaded_hasInput _ (by decide)⟩

/-- CsVerifyTestsZeroChecksum: an input whose checksum is 0, and one whose checksum is not. -/
theorem witness_CsVerifyTestsZeroChecksum :
    (loaded [0xFF, 0xFF]).HasInput [0xFF, 0xFF] ∧ checksumNat [0xFF, 0xFF] = 0 ∧
    (loaded [0x00, 0x00]).HasInput [0x00, 0x00] ∧ checksumNat [0x00, 0x00] ≠ 0 :=
  ⟨loaded_hasInput _ (by decide), by decide, loaded_hasInput _ (by decide), by decide⟩

/-- ChecksumIsInternetChecksum: 1 byte, an even and an odd length, the longest input every capacity holds, and the
longest of the statement where the capacity holds it (R5 leaves `BUF_CAP` at 65536 or above). -/
theorem witness_ChecksumIsInternetChecksum :
    ∀ n ∈ [1, 2, 3, 65536, 131074], n ≤ Config.bufCap →
      (loaded (List.replicate n 0xFF#8)).HasInput (List.replicate n 0xFF#8) ∧ List.replicate n 0xFF#8 ≠ [] ∧
      (List.replicate n 0xFF#8).length ≤ 131074 ∧ (List.replicate n 0xFF#8).length ≤ Config.bufCap := by
  intro n hn hc
  have hb : 1 ≤ n ∧ n ≤ 131074 :=
    (by decide : ∀ n ∈ [1, 2, 3, 65536, 131074], 1 ≤ n ∧ n ≤ 131074) n hn
  have hl : (List.replicate n 0xFF#8).length = n := List.length_replicate
  exact ⟨loaded_hasInput _ (by omega), List.ne_nil_of_length_pos (by omega), by omega, by omega⟩

theorem witness_ChecksumIsInternetChecksum_capacity :
    ∀ n ∈ [1, 2, 3, 65536], n ≤ Config.bufCap := fun n hn =>
  le_bufCap ((by decide : ∀ n ∈ [1, 2, 3, 65536], n ≤ 65536) n hn)

theorem witness_EmptyBufferChecksum : State.reset.inLen = 0#32 := rfl

/-- CsApplyStoresChecksum: lengths 1 and 11 are short; 0 and 12 are not. -/
theorem witness_CsApplyStoresChecksum :
    (withLen 1#32).inLen.toNat = 1 ∧ (withLen 11#32).inLen.toNat = 11 ∧ (loaded []).HasInput [] ∧
    (loaded (List.replicate 12 0x41#8)).HasInput (List.replicate 12 0x41#8) :=
  ⟨rfl, rfl, loaded_hasInput _ (by decide), loaded_hasInput _ (by decide)⟩

/-- ApplyThenVerifyHolds and CsApplyIdempotent: the least length. -/
theorem witness_ApplyThenVerifyHolds :
    (loaded (List.replicate 12 0x41#8)).HasInput (List.replicate 12 0x41#8) ∧
    12 ≤ (List.replicate 12 0x41#8).length ∧ (List.replicate 12 0x41#8).length ≤ Config.bufCap :=
  ⟨loaded_hasInput _ (by decide), by decide, le_bufCap (by decide)⟩

theorem witness_CsApplyIdempotent :
    (loaded (List.replicate 13 0x41#8)).HasInput (List.replicate 13 0x41#8) ∧
    12 ≤ (List.replicate 13 0x41#8).length ∧ (List.replicate 13 0x41#8).length ≤ Config.bufCap :=
  ⟨loaded_hasInput _ (by decide), by decide, le_bufCap (by decide)⟩

theorem witness_MgDeriveFoldsNameBuffer :
    (loaded []).HasInput [] ∧ (loaded (List.replicate 16 0x41#8)).HasInput (List.replicate 16 0x41#8) ∧
    (loaded (List.replicate 17 0x41#8)).HasInput (List.replicate 17 0x41#8) :=
  ⟨loaded_hasInput _ (by decide), loaded_hasInput _ (by decide), loaded_hasInput _ (by decide)⟩

theorem witness_MgNameKnowsMandatoryModels :
    ({ State.reset with argMagic := 0x62744915#32 } : State).argMagic = 0x62744915#32 ∧
    State.reset.argMagic = 0#32 := ⟨rfl, rfl⟩

/-- CfgWrapEncryptsImage: one flag missing; one byte above `CFG_MAX`, within the capacity; 5 bytes; 0 and 8 bytes. -/
theorem witness_CfgWrapEncryptsImage :
    (CmdFlags.mk false true false).vv = false ∧
    (Config.cfgMax < (withLen (BitVec.ofNat 32 (Config.cfgMax + 1))).inLen.toNat ∧
      (withLen (BitVec.ofNat 32 (Config.cfgMax + 1))).inLen.toNat ≤ Config.bufCap) ∧
    (loaded (List.replicate 5 0x41#8)).HasInput (List.replicate 5 0x41#8) ∧
    (loaded []).HasInput [] ∧ (loaded (List.replicate 8 0x41#8)).HasInput (List.replicate 8 0x41#8) ∧
    (loaded (List.replicate 8 0x41#8)).inLen.toNat ≤ Config.cfgMax := by
  have h1 := cfgMax_upper
  have h2 := cfgImage_le_bufCap
  have h3 := cfgMax_lower
  have h4 : (withLen (BitVec.ofNat 32 (Config.cfgMax + 1))).inLen.toNat = Config.cfgMax + 1 := by
    simp only [withLen, BitVec.toNat_ofNat]
    exact Nat.mod_eq_of_lt (by omega)
  have h5 : (loaded (List.replicate 8 0x41#8)).inLen.toNat = 8 := by decide
  rw [h4, h5]
  exact ⟨rfl, ⟨by omega, by omega⟩, loaded_hasInput _ (by decide), loaded_hasInput _ (by decide),
    loaded_hasInput _ (by decide), by omega⟩

/-- The plain images behind the clauses of the statement about `CFG.EXTRACT`: a wrong checksum; a right checksum
with a wrong length, with a buffer shorter than a header, with everything right; declared too short and below 24. -/
def plainImages : List (List Byte) :=
  [[], List.replicate 16 0#8, image2.set 31 0x49, image8, [0xFF#8, 0xFF] ++ List.replicate 14 0#8, image2,
    image2.set 7 0x1C, image2.set 7 0x10]

theorem witness_CfgExtract_states :
    ∀ p ∈ plainImages, ∃ input, (encrypted p).HasInput input ∧ IsCipherOf Config.bcD (encrypted p).keyState input p ∧
      (encrypted p).inLen.toNat % 8 = 0 ∧ (encrypted p).inLen.toNat ≤ Config.bufCap := by
  intro p hp
  have h8 : p.length % 8 = 0 := (by decide : ∀ p ∈ plainImages, p.length % 8 = 0) p hp
  have hl : p.length ≤ 32 := (by decide : ∀ p ∈ plainImages, p.length ≤ 32) p hp
  obtain ⟨input, h1, h2, h3⟩ := encrypted_input p h8 (by omega)
  exact ⟨input, h1, h2, by omega, by rw [h3]; exact le_bufCap (by omega)⟩

theorem witness_CfgExtractReturnsPayload :
    checksumNat (image2.set 31 0x49) ≠ 0 ∧ checksumNat [] ≠ 0 ∧
    (checksumNat image8 = 0 ∧ (be32At image8 4).toNat ≠ image8.length) ∧
    (checksumNat ([0xFF#8, 0xFF] ++ List.replicate 14 0#8) = 0 ∧ ([0xFF#8, 0xFF] ++ List.replicate 14 0#8).length < 24) ∧
    (checksumNat image2 = 0 ∧ 24 ≤ image2.length ∧ (be32At image2 4).toNat = image2.length ∧
      image2.length ≤ Config.cfgMax + 24) :=
  ⟨by decide, by decide, by decide, by decide, by decide, by decide, by decide, by
    have := cfgMax_lower
    have : image2.length = 32 := rfl
    omega⟩

/-- CfgExtractReturnsPayload, with `F = 1`. -/
theorem witness_CfgExtractReturnsPayload_forced :
    (List.replicate 16 0#8 : List Byte).length < 24 ∧
    (be32At image2 4).toNat = image2.length ∧ image2.length ≤ Config.cfgMax + 24 ∧
    (be32At image8 4).toNat ≠ image8.length ∧ (be32At (image2.set 7 0x1C) 4).toNat = 28 ∧
    (be32At (image2.set 7 0x10) 4).toNat = 16 :=
  ⟨by decide, by decide, by
    have := cfgMax_lower
    have : image2.length = 32 := rfl
    omega, by decide, by decide, by decide⟩

/-- CfgRoundTrip: the empty payload and one of 8 bytes, and a state that has any ciphertext `c` as its input. -/
theorem witness_CfgRoundTrip :
    (∀ p ∈ [[], [0x41#8, 0x42, 0x43, 0x44, 0x45, 0x46, 0x47, 0x48]],
      (loaded p).HasInput p ∧ p.length % 8 = 0 ∧ p.length ≤ Config.cfgMax) ∧
    ∀ c : List Byte, c.length < 2 ^ 32 → (loaded c).keyState = State.reset.keyState ∧ (loaded c).HasInput c := by
  refine ⟨fun p hp => ?_, fun c hc => ⟨rfl, loaded_hasInput c hc⟩⟩
  have h1 := cfgMax_lower
  have h8 : p.length ≤ 8 ∧ p.length % 8 = 0 :=
    (by decide : ∀ p ∈ [[], [0x41#8, 0x42, 0x43, 0x44, 0x45, 0x46, 0x47, 0x48]], p.length ≤ 8 ∧ p.length % 8 = 0) p hp
  exact ⟨loaded_hasInput p (by omega), h8.2, by omega⟩

/-- NvCrc8CoversDeclaredImage: 19 bytes are short, 20 are not. -/
theorem witness_NvCrc8CoversDeclaredImage :
    (withLen 19#32).inLen.toNat < 20 ∧ (loaded (List.replicate 20 0x41#8)).HasInput (List.replicate 20 0x41#8) ∧
    (loaded (List.replicate 20 0x41#8)).inLen.toNat = 20 :=
  ⟨by decide, loaded_hasInput _ (by decide), by decide⟩

theorem witness_NvCrc8IgnoresStoredByte :
    (loaded imageG).HasInput imageG ∧ (loaded (imageG.set 8 0#8)).HasInput (imageG.set 8 0#8) ∧
    20 ≤ imageG.length ∧ imageG.length ≤ Config.bufCap :=
  ⟨loaded_hasInput _ (by decide), loaded_hasInput _ (by decide), by decide, le_bufCap (by decide)⟩

/-- A 20-byte NVRAM image with a magic, a declared length and a CRC byte, all else zero. -/
def nvSample (magic l : Word) (c : Byte) : List Byte := toBe32 magic ++ toBe32 l ++ c :: List.replicate 11 0#8

theorem nvSample_fields (magic l : Word) (c : Byte) :
    be32At (nvSample magic l c) 0 = magic ∧ be32At (nvSample magic l c) 4 = l ∧ byteAt (nvSample magic l c) 8 = c ∧
    (loaded (nvSample magic l c)).HasInput (nvSample magic l c) ∧ (nvSample magic l c).length = 20 :=
  ⟨be32_of_toBe32 magic, be32_of_toBe32 l, rfl, loaded_hasInput _ (by show 20 < 2 ^ 32; decide), rfl⟩

/-- The bytes of the sample that the CRC-8 covers, for the declared lengths 19, 20 and 21. -/
theorem nvSample_covered (magic l : Word) (c : Byte) :
    ((nvSample magic l c).take 19).drop 9 = List.replicate 10 0#8 ∧
    ((nvSample magic l c).take 20).drop 9 = List.replicate 11 0#8 ∧
    ((nvSample magic l c).take 21).drop 9 = List.replicate 11 0#8 := by
  simp [nvSample, toBe32, List.replicate]

/-- NvExtractReturnsText: a wrong magic; a right magic with a wrong CRC (any byte but the right one); both right with a
declared length of 19 and of 21; all right with a declared length of 20. -/
theorem witness_NvExtractReturnsText :
    (∀ magic, magic ≠ Config.nvMagic → be32At (nvSample magic 20#32 0#8) 0 ≠ Config.nvMagic) ∧
    (∀ c, c ≠ Config.crc8 (List.replicate 11 0#8) →
      Config.crc8 (((nvSample Config.nvMagic 20#32 c).take 20).drop 9) ≠ byteAt (nvSample Config.nvMagic 20#32 c) 8) ∧
    (∀ c, c = Config.crc8 (List.replicate 10 0#8) →
      Config.crc8 (((nvSample Config.nvMagic 19#32 c).take 19).drop 9) = byteAt (nvSample Config.nvMagic 19#32 c) 8) ∧
    (∀ c, c = Config.crc8 (List.replicate 11 0#8) →
      Config.crc8 (((nvSample Config.nvMagic 20#32 c).take 20).drop 9) = byteAt (nvSample Config.nvMagic 20#32 c) 8 ∧
      Config.crc8 (((nvSample Config.nvMagic 21#32 c).take 21).drop 9) = byteAt (nvSample Config.nvMagic 21#32 c) 8) := by
  refine ⟨fun magic h => ?_, fun c h => ?_, fun c h => ?_, fun c h => ⟨?_, ?_⟩⟩
  · rw [(nvSample_fields _ _ _).1]
    exact h
  · rw [(nvSample_covered _ _ _).2.1, (nvSample_fields _ _ _).2.2.1]
    exact h.symm
  · rw [(nvSample_covered _ _ _).1, (nvSample_fields _ _ _).2.2.1, h]
  · rw [(nvSample_covered _ _ _).2.1, (nvSample_fields _ _ _).2.2.1, h]
  · rw [(nvSample_covered _ _ _).2.2, (nvSample_fields _ _ _).2.2.1, h]

/-- NvExtractReturnsText, with `F = 1`: declared lengths 19 and 21 do not fit in 20 bytes; 20 does. -/
theorem witness_NvExtractReturnsText_forced :
    ∀ l ∈ [19#32, 20#32, 21#32], be32At (nvSample 0#32 l 0#8) 4 = l ∧
      (loaded (nvSample 0#32 l 0#8)).HasInput (nvSample 0#32 l 0#8) ∧ (nvSample 0#32 l 0#8).length = 20 :=
  fun l _ => ⟨(nvSample_fields 0#32 l 0#8).2.1, (nvSample_fields 0#32 l 0#8).2.2.2⟩

/-- NvWrapBuildsImage and NvRoundTrip: 65517 bytes are too many; the longest text, and texts of 0 and 7 bytes, are not;
a text that comes back, one that comes back longer, and ones with a NUL or an empty line. -/
theorem witness_NvWrapBuildsImage :
    65516 < (withLen 65517#32).inLen.toNat ∧
    (loaded (List.replicate 65516 0x41#8)).HasInput (List.replicate 65516 0x41#8) ∧ 65516 ≤ Config.bufCap :=
  ⟨by decide, (witness_input_lengths 65516 (by decide)).1, le_bufCap (by decide)⟩

theorem witness_NvRoundTrip :
    (∀ text ∈ [[], [0x61#8, 0x3D, 0x31, 0x0A, 0x62, 0x3D, 0x32], [0x61#8, 0x62, 0x0A], [0x00#8], [0x0A#8, 0x0A]],
      (loaded text).HasInput text ∧ text.length ≤ 65516) ∧
    (∀ m : List Byte, m.length < 2 ^ 32 → (loaded m).HasInput m) ∧
    (0x00#8 ∉ [0x61#8, 0x3D, 0x31, 0x0A, 0x62, 0x3D, 0x32] ∧
      ¬ [0x0A#8, 0x0A] <:+: [0x61#8, 0x3D, 0x31, 0x0A, 0x62, 0x3D, 0x32] ∧
      ¬ ((20 + 7) % 4 = 0 ∨ [0x61#8, 0x3D, 0x31, 0x0A, 0x62, 0x3D, 0x32].getLast? = some 0x0A#8)) := by
  refine ⟨fun text h => ?_, loaded_hasInput, by decide⟩
  have hl : text.length ≤ 7 := (by decide : ∀ text ∈ [[], [0x61#8, 0x3D, 0x31, 0x0A, 0x62, 0x3D, 0x32],
    [0x61#8, 0x62, 0x0A], [0x00#8], [0x0A#8, 0x0A]], text.length ≤ 7) text h
  exact ⟨loaded_hasInput text (by omega), by omega⟩

/-- StepKeepsInvariant: a state with the invariant whose step is a command. -/
theorem witness_StepKeepsInvariant :
    (State.reset.withFetchWord 32 0x02).Inv ∧ ∃ t, step (State.reset.withFetchWord 32 0x02) = .next t := by
  refine ⟨⟨⟨rfl, rfl, fun c hc => absurd hc (List.not_mem_nil), Nat.zero_le _, fun a => rfl⟩,
    ⟨rfl, rfl, rfl, rfl, rfl, by decide⟩, ⟨by decide, by decide, fun h => absurd rfl h⟩⟩, _, rfl⟩

/-- CommandsCompleteOnWrittenInput: one case of each kind. -/
theorem witness_CommandsCompleteOnWrittenInput :
    (∃ t, exec (.csCalc noFlags) (loaded [0x12, 0x34]) = .next t) ∧
    exec (.csCalc noFlags) (withLen 1#32) = .fault .unwrittenInput := ⟨⟨_, rfl⟩, rfl⟩

/-- OnlyCsApplyWritesIbuf: a command that changes `IBUF`, and one that does not. -/
theorem witness_OnlyCsApplyWritesIbuf :
    (∃ t, exec (.csApply noFlags) (loaded (List.replicate 12 0x41#8)) = .next t ∧
      t.ibuf ≠ (loaded (List.replicate 12 0x41#8)).ibuf) ∧
    ∃ t, exec (.ksNext noFlags) State.reset = .next t := by
  refine ⟨⟨_, rfl, ?_⟩, _, rfl⟩
  decide

/-- KeyStateChangesOnlyByItsCommands, RegistersWrittenByTheirCommandsOnly: commands in and outside the lists. -/
theorem witness_KeyStateChangesOnlyByItsCommands :
    (∃ t, exec (.mgName noFlags) State.reset = .next t) ∧ (∃ t, exec (.ksReseed noFlags) State.reset = .next t) ∧
    (∃ t, exec (.ksNext noFlags) State.reset = .next t) ∧
    (Instr.mgName noFlags).opc.toNat ∉ [0x01, 0x02, 0x03, 0x04, 0x0A, 0x0B, 0x0C] ∧
    (Instr.ksNext noFlags).opc ≠ 0x01#8 := ⟨⟨_, rfl⟩, ⟨_, rfl⟩, ⟨_, rfl⟩, by decide, by decide⟩

theorem witness_RegistersWrittenByTheirCommandsOnly :
    (∃ t, exec (.ksNext noFlags) State.reset = .next t) ∧
    (Instr.ksNext noFlags).opc.toNat ∉ [0x05, 0x06, 0x08, 0x0D] ∧ (Instr.ksNext noFlags).opc.toNat ∉ [0x0B, 0x0E] ∧
    (Instr.ksNext noFlags).opc ≠ 0x0B#8 := ⟨⟨_, rfl⟩, by decide, by decide, by decide⟩

/-- ErrorsLeaveNoOutput: a command that ends in an error. -/
theorem witness_ErrorsLeaveNoOutput :
    after (fun t => t.status.toNat % 256) (exec (.csApply noFlags) (withLen 11#32)) = some 0x11 := by decide

/-- UnreadFlagsAreIgnored: two encodings of one command that differ in flags it does not read, for a command that reads
none, for one that reads `F`, and for `CFG.WRAP`. -/
theorem witness_UnreadFlagsAreIgnored :
    (Instr.csCalc ⟨true, true, true⟩).opc = (Instr.csCalc noFlags).opc ∧
    (Instr.csCalc noFlags).opc ≠ 0x0B#8 ∧ (Instr.csCalc noFlags).opc ≠ 0x0E#8 ∧ (Instr.csCalc noFlags).opc ≠ 0x0C#8 ∧
    (Instr.nvExtract ⟨true, true, true⟩).flags.f = (Instr.nvExtract force).flags.f ∧
    ((Instr.cfgWrap ⟨true, true, false⟩).flags.mv = (Instr.cfgWrap ⟨false, true, false⟩).flags.mv ∧
      (Instr.cfgWrap ⟨true, true, false⟩).flags.vv = (Instr.cfgWrap ⟨false, true, false⟩).flags.vv) := by decide

/-- CommandsIgnoreOldOutput: a command that writes `RESULT`, one that fails, one that does not write it. -/
theorem witness_CommandsIgnoreOldOutput :
    (∃ t, exec (.csCalc noFlags) (loaded [0x12, 0x34]) = .next t) ∧
    (∃ t, exec (.bcEnc noFlags) (loaded (List.replicate 7 0x41#8)) = .next t) ∧
    ∃ t, exec (.ksNext noFlags) State.reset = .next t := ⟨⟨_, rfl⟩, ⟨_, rfl⟩, _, rfl⟩

/-- InputBeyondLengthIsNotRead: a buffer with one byte more. -/
theorem witness_InputBeyondLengthIsNotRead :
    (∀ a, a < (loaded [0x12, 0x34]).inLen.toNat →
      Mem.read (Mem.cells 0 [0x12#8, 0x34, 0x56]) a = (loaded [0x12, 0x34]).ibuf.read a) ∧
    ∃ t, exec (.csCalc noFlags) (loaded [0x12, 0x34]) = .next t := by
  refine ⟨fun a (ha : a < 2) => ?_, _, rfl⟩
  rcases (by omega : a = 0 ∨ a = 1) with rfl | rfl <;> rfl

theorem witness_ResetClearsTheBlock :
    ({ loaded [0x41] with script := [.reset] } : State).script = .reset :: [] := rfl

/-- HostRegisterWrites: a read-only, a writable and a reserved number. -/
theorem witness_HostRegisterWrites :
    ∀ n ∈ [1, 2, 4, 5, 10, 11], n ≠ 0 ∧
      ({ State.reset with script := [.wr n 1#32] } : State).script = .wr n 1#32 :: [] := by decide

theorem witness_LoadSetsInput :
    ∀ bs ∈ [[], [0x41#8, 0x42]], ({ State.reset with script := HostAction.load bs } : State).script =
      HostAction.load bs ++ [] ∧ bs.length ≤ Config.bufCap := by
  intro bs h
  have hl : bs.length ≤ 2 := (by decide : ∀ bs ∈ [[], [0x41#8, 0x42]], bs.length ≤ 2) bs h
  exact ⟨by simp, le_bufCap (by omega)⟩

/-- MoveCopiesOutputToInput, ReadBytesReturnsOutput: a state with a two-byte output. -/
theorem witness_MoveCopiesOutputToInput :
    ({ State.reset.finish [0x41, 0x42] false with script := [.move] } : State).HasOutput [0x41, 0x42] ∧
    [0x41#8, 0x42].length ≤ Config.bufCap :=
  ⟨⟨rfl, fun a _ => read_cells _ a⟩, le_bufCap (by decide)⟩

theorem witness_ReadBytesReturnsOutput :
    ({ State.reset.finish [0x41, 0x42] false with script := [.rb .obuf 1 1] } : State).HasOutput [0x41, 0x42] ∧
    1 + 1 ≤ [0x41#8, 0x42].length ∧ [0x41#8, 0x42].length ≤ Config.bufCap :=
  ⟨⟨rfl, fun a _ => read_cells _ a⟩, by decide, le_bufCap (by decide)⟩

end Sys2Proof.Tests
end

/-! ## State: the block's registers, its reset state, and what a command leaves of both (spec/10_state.md)

The lemmas about one step, one register write and the end of a command come first; each statement of the family then
takes a step or a command apart by one of them. -/

namespace Sys2Proof.Machine

/-! ### One step of the host's script (R11, R13, R61) -/

/-- A step performs the first pending action in the state that has lost it. -/
theorem step_of_script {s : State} {a : HostAction} {rest : List HostAction} (h : s.script = a :: rest) :
    step s = hostAct a { s with script := rest } := by
  unfold step
  rw [h]

/-- A write of a legal word to `CMD` runs its command in the state that holds the word. -/
theorem runCommand_of_decode {w : Word} {i : Instr} (h : decode w = .ok i) (s : State) :
    runCommand w s = exec i { s with cmd := w } := by
  unfold runCommand
  rw [h]
  rfl

/-- A write of a register other than `CMD` only stores. -/
theorem hostWriteReg_of_ne_zero {n : Nat} (h : n ≠ 0) (v : Word) (s : State) :
    hostWriteReg n v s = .next (s.writeReg n v) := if_neg h

/-! ### The register file (R12, R24) -/

/-- What a write of a register other than `CMD` stores: one of the three writable registers, or nothing. -/
theorem writeReg_cases {n : Nat} (h : n ≠ 0) (s : State) (v : Word) :
    (n = 2 ∧ s.writeReg n v = { s with inLen := v }) ∨
    (n = 4 ∧ s.writeReg n v = { s with argMagic := v }) ∨
    (n = 5 ∧ s.writeReg n v = { s with argVersion := v }) ∨
    (¬ (n = 2 ∨ n = 4 ∨ n = 5) ∧ s.writeReg n v = s) := by
  unfold State.writeReg
  split
  · exact absurd rfl h
  · exact .inl ⟨rfl, rfl⟩
  · exact .inr (.inl ⟨rfl, rfl⟩)
  · exact .inr (.inr (.inl ⟨rfl, rfl⟩))
  · rename_i h2 h4 h5
    exact .inr (.inr (.inr ⟨by rintro (rfl | rfl | rfl) <;> contradiction, rfl⟩))

/-- The reserved register numbers read 0. -/
theorem readReg_of_reserved {k : Nat} (h : 11 ≤ k) (s : State) : s.readReg k = 0#32 := by
  unfold State.readReg
  split
  case h_12 => rfl
  all_goals omega

@[simp] theorem readReg_setInLen (s : State) (v : Word) (k : Nat) :
    ({ s with inLen := v } : State).readReg k = if k = 2 then v else s.readReg k := by
  unfold State.readReg
  split <;> simp_all

@[simp] theorem readReg_setArgMagic (s : State) (v : Word) (k : Nat) :
    ({ s with argMagic := v } : State).readReg k = if k = 4 then v else s.readReg k := by
  unfold State.readReg
  split <;> simp_all

@[simp] theorem readReg_setArgVersion (s : State) (v : Word) (k : Nat) :
    ({ s with argVersion := v } : State).readReg k = if k = 5 then v else s.readReg k := by
  unfold State.readReg
  split <;> simp_all

/-- A read after a write of a register other than `CMD`. -/
theorem readReg_writeReg {n : Nat} (h : n ≠ 0) (s : State) (v : Word) (k : Nat) :
    (s.writeReg n v).readReg k = if k = n ∧ (n = 2 ∨ n = 4 ∨ n = 5) then v else s.readReg k := by
  rcases writeReg_cases h s v with ⟨rfl, hw⟩ | ⟨rfl, hw⟩ | ⟨rfl, hw⟩ | ⟨hn, hw⟩
  · simp [hw]
  · simp [hw]
  · simp [hw]
  · rw [hw, if_neg fun hk => hn hk.2]

/-- A write of a register other than `CMD` can change the three writable registers only. -/
theorem writeReg_frame {n : Nat} (h : n ≠ 0) (s : State) (v : Word) :
    s.writeReg n v = { s with inLen := (s.writeReg n v).inLen, argMagic := (s.writeReg n v).argMagic,
                              argVersion := (s.writeReg n v).argVersion } := by
  rcases writeReg_cases h s v with ⟨_, hw⟩ | ⟨_, hw⟩ | ⟨_, hw⟩ | ⟨_, hw⟩ <;> rw [hw]

/-! ### The end of a command (R150, R155) -/

/-- Every error kind but the external collaborator's has a code the block produces. -/
theorem code_mem_producedCodes {e : ErrorKind} (he : e ≠ .ioFailure) : e.code.toNat ∈ producedCodes := by
  cases e with
  | ioFailure => exact absurd rfl he
  | _ => decide

/-- An error leaves a valid `STATUS` and no output. -/
theorem raise_statusOk (s : State) {e : ErrorKind} (he : e ≠ .ioFailure) : (s.raise e).StatusOk := by
  have hlt : e.code.toNat < 256 := e.code.isLt
  simp only [State.StatusOk, raise_status, errorStatus_toNat, Nat.mod_eq_of_lt hlt]
  exact ⟨by omega, code_mem_producedCodes he, fun _ => ⟨hlt, rfl⟩⟩

/-- A success has `ERR` = 0, with a warning or without. -/
theorem okStatus_err (warn : Bool) : (okStatus warn).toNat % 256 = 0 := by
  rcases okStatus_cases warn with h | h <;> rw [h] <;> rfl

/-- A success leaves a valid `STATUS`. -/
theorem finish_statusOk (s : State) (out : List Byte) (warn : Bool) : (s.finish out warn).StatusOk := by
  refine ⟨?_, ?_, fun hne => absurd (okStatus_err warn) hne⟩
  · rcases okStatus_cases warn with h | h <;> rw [finish_status, h] <;> decide
  · rw [finish_status, okStatus_err]
    decide

/-- The end of a command touches `OBUF`, `OUT_LEN` and `STATUS` only: all else is as the command's effect left it. -/
theorem exec_next_frame {i : Instr} {s t : State} (h : exec i s = .next t) :
    ∃ s1 obuf outLen status, Effect i s s1 ∧ t = { s1 with obuf := obuf, outLen := outLen, status := status } := by
  obtain ⟨s1, he, ⟨e, _, ht, _, _⟩ | ⟨out, warn, _, ht⟩⟩ := exec_next h
  · exact ⟨s1, _, _, _, he, ht⟩
  · exact ⟨s1, _, _, _, he, ht⟩

/-! ### The statements -/

/-- Settles O34: a command's effect on `KeyState` is what it leaves, and only `KS.RESEED`'s is no number of steps. -/
theorem keyStateChangesOnlyByItsCommands : Obligations.KeyStateChangesOnlyByItsCommands := by
  intro i s t h
  obtain ⟨s1, _, _, _, he, rfl⟩ := exec_next_frame h
  exact ⟨he.keyState_same, fun hne => he.keyState.resolve_left fun hseed => hne hseed.1⟩

/-- Settles O35: a command's effect writes registers by the table, and its end none of those named here. -/
theorem registersWrittenByTheirCommandsOnly : Obligations.RegistersWrittenByTheirCommandsOnly := by
  intro i s t h
  obtain ⟨s1, _, _, _, he, rfl⟩ := exec_next_frame h
  have hframe {α : Type} (field : State → α) := congrArg field he.frame
  exact ⟨hframe State.cmd, hframe State.inLen, hframe State.argMagic, hframe State.argVersion, he.result_same,
    he.hdr_same, he.hdrVersion_same, hframe State.script, hframe State.seen, hframe State.freeCount⟩

/-- Settles O36, by the two ways a command ends. -/
theorem errorsLeaveNoOutput : Obligations.ErrorsLeaveNoOutput := by
  intro i s t h
  obtain ⟨s1, _, ⟨e, he, rfl, hresult, hibuf⟩ | ⟨out, warn, _, rfl⟩⟩ := exec_next h
  · exact ⟨raise_statusOk s1 he, fun _ => ⟨hresult, hibuf⟩⟩
  · exact ⟨finish_statusOk s1 out warn, fun hne => absurd (okStatus_err warn) hne⟩

/-- Settles O41, by the laws of the register file in the state that has lost the action. -/
theorem hostRegisterWrites : Obligations.HostRegisterWrites := by
  intro s n v rest hscript hn
  have hstep : step s = .next ({ s with script := rest }.writeReg n v) :=
    (step_of_script hscript).trans (hostWriteReg_of_ne_zero hn v _)
  exact ⟨_, hstep, readReg_writeReg hn _ v, fun k hk => readReg_of_reserved hk _, writeReg_frame hn _ v⟩

/-- Settles O5: the step is the write of `CMD`, which decodes the word and runs the command. -/
theorem stepRunsDecodedCommand : Obligations.StepRunsDecodedCommand := by
  intro s w rest i hscript hdecode
  calc step s = hostWriteReg 0 w { s with script := rest } := step_of_script hscript
    _ = runCommand w { s with script := rest } := if_pos rfl
    _ = exec i { s with script := rest, cmd := w } := runCommand_of_decode hdecode _

/-- Settles O30: empty buffers, the seed and `STATUS` 0. -/
theorem resetMeetsInvariant : Obligations.ResetMeetsInvariant := by
  have hbuffers : State.reset.BuffersOk :=
    ⟨reset_wf.1, reset_wf.2, fun _ hc => absurd hc List.not_mem_nil, Nat.zero_le _, fun a => by simp [State.reset]⟩
  have hkey : State.reset.KeyStateOk := ⟨rfl, rfl, rfl, rfl, rfl, rfl⟩
  have hstatus : State.reset.StatusOk := ⟨by decide, by decide, fun hne => absurd rfl hne⟩
  exact ⟨hbuffers, hkey, hstatus⟩

end Sys2Proof.Machine

/-! ## Memory: what the host and the commands read and write of the two buffers (spec/20_memory.md)

The host's accesses and the invariant come first, then `CS.APPLY`, the one command that writes `IBUF` (R43), and last
the commands' indifference to what `IBUF` holds from `IN_LEN` on. -/

namespace Sys2Proof.Machine

/-! ### The parts of the invariant -/

/-- A buffer in canonical form with no offset at or beyond `BUF_CAP` (R19, R33). -/
def Mem.InCapacity (m : Mem) : Prop := m.wf = true ∧ ∀ c ∈ m, c.1 < Config.bufCap

/-- Bytes 3 to 7 of a `KeyState` are the seed's and byte 0 is 6 modulo 8 (R73 (d), (e)). -/
def KeyOk (k : Bytes8) : Prop :=
  k.b3 = 0x72#8 ∧ k.b4 = 0x42#8 ∧ k.b5 = 0x61#8 ∧ k.b6 = 0x6B#8 ∧ k.b7 = 0x00#8 ∧ k.b0.toNat % 8 = 6

theorem keyStateOk_iff (s : State) : s.KeyStateOk ↔ KeyOk s.keyState := Iff.rfl

theorem State.BuffersOk.ibuf_inCapacity {s : State} (h : s.BuffersOk) : s.ibuf.InCapacity := by
  obtain ⟨hwf, _, hbound, _⟩ := h
  exact ⟨hwf, hbound⟩

/-- Another input buffer within the capacity leaves the buffers valid. -/
theorem State.BuffersOk.of_ibuf {s t : State} (h : s.BuffersOk) (hm : t.ibuf.InCapacity) (hobuf : t.obuf = s.obuf)
    (houtLen : t.outLen = s.outLen) : t.BuffersOk := by
  obtain ⟨_, hwf, _, hlen, hread⟩ := h
  rw [State.BuffersOk, hobuf, houtLen]
  exact ⟨hm.1, hwf, hm.2, hlen, hread⟩

/-- A state with the invariant keeps it whatever is done to `IBUF` within the capacity, and to the fields that the
invariant does not speak of. -/
theorem State.Inv.of_ibuf {s t : State} (h : s.Inv) (hm : t.ibuf.InCapacity) (hkey : t.keyState = s.keyState)
    (hstatus : t.status = s.status) (houtLen : t.outLen = s.outLen) (hobuf : t.obuf = s.obuf) : t.Inv := by
  obtain ⟨hbuffers, hks, hst⟩ := h
  refine ⟨hbuffers.of_ibuf hm hobuf houtLen, ?_, ?_⟩
  · rwa [keyStateOk_iff, hkey]
  · rwa [State.StatusOk, hstatus, houtLen]

/-- A write inside the capacity keeps a buffer there. -/
theorem Mem.InCapacity.write {m : Mem} (h : m.InCapacity) {a : Nat} {bs : List Byte}
    (hb : a + bs.length ≤ Config.bufCap) : (m.write a bs).InCapacity := by
  refine ⟨write_wf m a bs h.1, fun c hc => ?_⟩
  rcases mem_write m a bs c hc with hold | hnew
  · exact h.2 c hold
  · omega

/-! ### The end of a command keeps the buffers valid -/

theorem raise_buffersOk {s : State} (e : ErrorKind) (h : s.ibuf.InCapacity) : (s.raise e).BuffersOk :=
  ⟨h.1, rfl, h.2, Nat.zero_le _, fun a => by simp⟩

theorem finish_buffersOk {s : State} {out : List Byte} (warn : Bool) (h : s.ibuf.InCapacity)
    (hl : out.length ≤ Config.bufCap) : (s.finish out warn).BuffersOk := by
  obtain ⟨hlen, _⟩ := finish_hasOutput s out warn (Nat.lt_of_le_of_lt hl bufCap_lt)
  refine ⟨h.1, cells_wf 0 out, h.2, by omega, fun a => ?_⟩
  rw [finish_obuf, read_cells, hlen, Bool.eq_iff_iff]
  simp

/-! ### The key stream (R70, R73) -/

/-- A key-stream step adds 8 to byte 0 and writes bytes 0 to 2 alone. -/
theorem nextKeyState_frame (k : Bytes8) :
    nextKeyState k = { k with b0 := k.b0 + 8#8, b1 := (nextKeyState k).b1, b2 := (nextKeyState k).b2 } := by
  unfold nextKeyState
  dsimp only [Config.ksStep]
  split
  · split <;> rfl
  · rfl

theorem nextKeyState_keyOk (k : Bytes8) (h : KeyOk k) : KeyOk (nextKeyState k) := by
  obtain ⟨h3, h4, h5, h6, h7, h0⟩ := h
  rw [nextKeyState_frame]
  refine ⟨h3, h4, h5, h6, h7, ?_⟩
  rw [BitVec.toNat_add, BitVec.toNat_ofNat]
  omega

theorem iterate_nextKeyState_keyOk (n : Nat) {k : Bytes8} (h : KeyOk k) : KeyOk (nextKeyState^[n] k) :=
  Function.Iterate.rec KeyOk h nextKeyState_keyOk n

theorem ksSeed_keyOk : KeyOk Config.ksSeed := ⟨rfl, rfl, rfl, rfl, rfl, rfl⟩

/-! ### Every command and every host action keeps the invariant -/

/-- Before its end a command leaves a valid `KeyState`. -/
theorem Effect.keyOk {i : Instr} {s s1 : State} (he : Effect i s s1) (h : KeyOk s.keyState) : KeyOk s1.keyState := by
  rcases he.keyState with ⟨_, hseed⟩ | ⟨n, hsteps⟩
  · rw [hseed]
    exact ksSeed_keyOk
  · rw [hsteps]
    exact iterate_nextKeyState_keyOk n h

/-- Before its end a command leaves `IBUF` within the capacity: `CS.APPLY` writes below an `IN_LEN` that is. -/
theorem Effect.ibuf_inCapacity {i : Instr} {s s1 : State} (he : Effect i s s1) (h : s.ibuf.InCapacity) :
    s1.ibuf.InCapacity := by
  rcases he.ibuf with hsame | ⟨_, hlow, hcap, v, hv, hwrite⟩
  · rwa [hsame]
  · rw [hwrite]
    exact h.write (by omega)

theorem exec_inv {i : Instr} {s t : State} (h : s.Inv) (hx : exec i s = .next t) : t.Inv := by
  obtain ⟨hbuffers, hks, _⟩ := h
  obtain ⟨s1, he, hend⟩ := exec_next hx
  have hibuf : s1.ibuf.InCapacity := he.ibuf_inCapacity hbuffers.ibuf_inCapacity
  have hkey : KeyOk s1.keyState := he.keyOk hks
  rcases hend with ⟨e, hne, rfl, _, _⟩ | ⟨out, warn, hl, rfl⟩
  · exact ⟨raise_buffersOk e hibuf, hkey, raise_statusOk s1 hne⟩
  · exact ⟨finish_buffersOk warn hibuf hl, hkey, finish_statusOk s1 out warn⟩

/-- A write of `CMD` runs a command or raises `IllegalCommand`, in the state that holds the word. -/
theorem runCommand_inv {w : Word} {s t : State} (h : s.Inv) (hx : runCommand w s = .next t) : t.Inv := by
  have hcmd : ({ s with cmd := w } : State).Inv := h
  cases hd : decode w with
  | ok i =>
    rw [runCommand_of_decode hd] at hx
    exact exec_inv hcmd hx
  | error e =>
    obtain ⟨hbuffers, hks, _⟩ := hcmd
    unfold runCommand at hx
    rw [hd] at hx
    cases hx
    exact ⟨raise_buffersOk _ hbuffers.ibuf_inCapacity, hks, raise_statusOk _ (by decide)⟩

theorem hostWriteReg_inv {n : Nat} {v : Word} {s t : State} (h : s.Inv) (hx : hostWriteReg n v s = .next t) :
    t.Inv := by
  by_cases hn : n = 0
  · subst hn
    exact runCommand_inv h hx
  · rw [hostWriteReg_of_ne_zero hn, writeReg_frame hn] at hx
    cases hx
    exact h

/-- A host write that is no fault lies inside the capacity and goes to `IBUF` or nowhere (R19). -/
theorem hostWriteBytes_next {sp : Space} {a : Nat} {bs : List Byte} {s t : State}
    (hx : hostWriteBytes sp a bs s = .next t) :
    a + bs.length ≤ Config.bufCap ∧ (t = s ∨ t = { s with ibuf := s.ibuf.write a bs }) := by
  unfold hostWriteBytes at hx
  split at hx
  · cases hx
  · rename_i hc
    refine ⟨(overCapacity_eq_false_iff _).1 (Bool.eq_false_iff.2 hc), ?_⟩
    cases sp with
    | ibuf => cases hx; exact .inr rfl
    | obuf => cases hx; exact .inl rfl

theorem hostWriteBytes_inv {sp : Space} {a : Nat} {bs : List Byte} {s t : State} (h : s.Inv)
    (hx : hostWriteBytes sp a bs s = .next t) : t.Inv := by
  obtain ⟨hb, rfl | rfl⟩ := hostWriteBytes_next hx
  · exact h
  · exact h.of_ibuf (h.1.ibuf_inCapacity.write hb) rfl rfl rfl rfl

/-- A host read of bytes inside the capacity records what the host gets and the free bytes it used. -/
theorem hostReadBytes_of_le {sp : Space} {a n : Nat} (hb : a + n ≤ Config.bufCap) (s : State) :
    hostReadBytes sp a n s = .next { s with seen := .bytes sp a (s.hostBytes sp a n).1 :: s.seen,
                                            freeCount := (s.hostBytes sp a n).2 } := by
  unfold hostReadBytes
  rw [overCapacity_false hb]
  rfl

theorem hostReadBytes_inv {sp : Space} {a n : Nat} {s t : State} (h : s.Inv)
    (hx : hostReadBytes sp a n s = .next t) : t.Inv := by
  unfold hostReadBytes at hx
  split at hx <;> cases hx
  exact h

/-- The host gets as many bytes as it asks for, written or free. -/
@[simp] theorem length_hostBytes (s : State) (sp : Space) (a n : Nat) : (s.hostBytes sp a n).1.length = n := by
  simp [State.hostBytes]

theorem hostMove_inv {s t : State} (h : s.Inv) (hx : hostMove s = .next t) : t.Inv := by
  unfold hostMove at hx
  simp only at hx
  split at hx
  · cases hx
  · rename_i hc
    have hb := (overCapacity_eq_false_iff _).1 (Bool.eq_false_iff.2 hc)
    cases hx
    exact h.of_ibuf (h.1.ibuf_inCapacity.write (by simpa using hb)) rfl rfl rfl rfl

/-- Every host action keeps the invariant. -/
theorem hostAct_inv {a : HostAction} {s t : State} (h : s.Inv) (hx : hostAct a s = .next t) : t.Inv := by
  cases a with
  | reset => cases hx; exact resetMeetsInvariant
  | wr n v => exact hostWriteReg_inv h hx
  | rd n => cases hx; exact h
  | wb sp off bs => exact hostWriteBytes_inv h hx
  | rb sp off n => exact hostReadBytes_inv h hx
  | move => exact hostMove_inv h hx

/-- Settles O31: a step is idle or one host action, and the invariant does not speak of the script. -/
theorem stepKeepsInvariant : Obligations.StepKeepsInvariant := by
  intro s t h hx
  cases hscript : s.script with
  | nil =>
    unfold step at hx
    rw [hscript] at hx
    cases hx
    exact h
  | cons a rest =>
    rw [step_of_script hscript] at hx
    have hrest : ({ s with script := rest } : State).Inv := h
    exact hostAct_inv hrest hx

/-! ### What the host reads of the output -/

/-- A run of offsets inside the output holds exactly its bytes. -/
theorem slots_obuf_of_hasOutput {s : State} {out : List Byte} (h : s.HasOutput out) {a n : Nat}
    (hn : a + n ≤ out.length) : s.obuf.slots a n = ((out.drop a).take n).map some := by
  have hbytes : s.obuf.bytes a n = some ((out.drop a).take n) := by
    refine (bytes_eq_some_iff _ _ _ _).2 ⟨by rw [List.length_take, List.length_drop]; omega, fun i hi => ?_⟩
    rw [h.2 (a + i) (by omega), List.getElem?_take_of_lt hi, List.getElem?_drop]
  exact allWritten_eq_some hbytes

/-- The host gets the bytes of the output as they are, and uses no free byte. -/
theorem hostBytes_of_hasOutput {s : State} {out : List Byte} (h : s.HasOutput out) {a n : Nat}
    (hn : a + n ≤ out.length) : s.hostBytes .obuf a n = ((out.drop a).take n, s.freeCount) := by
  rw [State.hostBytes, State.space, slots_obuf_of_hasOutput h hn, fillFree_map_some]

/-- Settles O44: the read is inside the capacity and every byte of it holds a value. -/
theorem readBytesReturnsOutput : Obligations.ReadBytesReturnsOutput := by
  intro s out a n rest hscript hout hn hcap
  have hrest : ({ s with script := rest } : State).HasOutput out := hout
  refine ⟨_, ?_, rfl⟩
  calc step s = hostReadBytes .obuf a n { s with script := rest } := step_of_script hscript
    _ = _ := by rw [hostReadBytes_of_le (by omega), hostBytes_of_hasOutput hrest hn]

/-! ### `CS.APPLY` (R43, R93) -/

/-- The state of a successful `CS.APPLY` of 12 bytes or more: the checksum field of the input stored at `IBUF:8`. -/
def State.afterApply (s : State) (input : List Byte) : State :=
  { s with ibuf := s.ibuf.write 8 (checkField input) }.finish [] false

@[simp] theorem length_checkField (input : List Byte) : (checkField input).length = 4 := length_toBe32 _

@[simp] theorem afterApply_inLen (s : State) (input : List Byte) : (s.afterApply input).inLen = s.inLen := rfl

@[simp] theorem afterApply_status (s : State) (input : List Byte) : (s.afterApply input).status = 0#32 := rfl

theorem read_afterApply (s : State) (input : List Byte) (a : Nat) :
    (s.afterApply input).ibuf.read a = if 8 ≤ a ∧ a < 12 then (checkField input)[a - 8]? else s.ibuf.read a := by
  rw [State.afterApply, finish_ibuf, read_write, length_checkField]

/-- `CS.APPLY` past its two errors. -/
theorem csApply_eq_withInput {s : State} (hcap : s.inLen.toNat ≤ Config.bufCap)
    (hlong : ¬ (1 ≤ s.inLen.toNat ∧ s.inLen.toNat ≤ 11)) (fl : CmdFlags) :
    exec (.csApply fl) s = s.withInput fun input =>
      if input.isEmpty then .next (s.finish [] false) else .next (s.afterApply input) := by
  change execCsApply fl s = _
  unfold execCsApply
  rw [overCapacity_false hcap, if_neg Bool.false_ne_true, if_neg hlong]
  rfl

theorem csApply_of_hasInput {s : State} {input : List Byte} (h : s.HasInput input) (hlow : 12 ≤ input.length)
    (hcap : input.length ≤ Config.bufCap) (fl : CmdFlags) : exec (.csApply fl) s = .next (s.afterApply input) := by
  have hlen := h.1
  rw [csApply_eq_withInput (by omega) (by omega), withInput_of_hasInput h, if_neg]
  rw [List.isEmpty_iff_length_eq_zero]
  omega

theorem eq_csApply_of_opc {i : Instr} (h : i.opc = 0x07#8) : ∃ fl, i = .csApply fl := by
  cases i with
  | csApply fl => exact ⟨fl, rfl⟩
  | _ => exact absurd h (by simp [Instr.opc])

/-- A command that answers a next state either kept `IBUF`, or is a `CS.APPLY` of 12 bytes or more that stored the
checksum field of its input. -/
theorem exec_next_ibuf {i : Instr} {s t : State} (h : exec i s = .next t) :
    t.ibuf = s.ibuf ∨ ∃ fl input, i = .csApply fl ∧ s.HasInput input ∧ 12 ≤ input.length ∧ t = s.afterApply input := by
  obtain ⟨s1, _, _, _, he, rfl⟩ := exec_next_frame h
  rcases he.ibuf with hsame | ⟨hopc, hlow, hcap, _⟩
  · exact .inl hsame
  · obtain ⟨fl, rfl⟩ := eq_csApply_of_opc hopc
    have hrun := h
    rw [csApply_eq_withInput hcap (by omega)] at hrun
    obtain ⟨input, hin, _⟩ := withInput_next hrun
    have hlen := hin.1
    rw [csApply_of_hasInput hin (by omega) (by omega)] at h
    exact .inr ⟨fl, input, rfl, hin, by omega, (Host.Outcome.next.inj h).symm⟩

/-- Settles O33: a command keeps `IBUF` or is a `CS.APPLY` that stored its field. -/
theorem onlyCsApplyWritesIbuf : Obligations.OnlyCsApplyWritesIbuf := by
  intro i s t h
  rcases exec_next_ibuf h with hsame | ⟨fl, input, rfl, hin, hlow, rfl⟩
  · exact ⟨fun hne => absurd hsame hne, fun a _ => by rw [hsame]⟩
  · have hlen := hin.1
    exact ⟨fun _ => ⟨rfl, by omega, afterApply_status s input⟩, fun a ha => by rw [read_afterApply, if_neg (by omega)]⟩

/-- A splice over a splice of the same place and length leaves the second. -/
theorem splice_splice_same (s : List Byte) (a : Nat) {v w : List Byte} (hl : w.length = v.length)
    (h : a + v.length ≤ s.length) : splice (splice s a v) a w = splice s a w := by
  have hv := length_splice s a v h
  apply List.ext_getElem?
  intro i
  rw [getElem?_splice _ _ w (by omega), getElem?_splice _ _ v h, getElem?_splice _ _ w (by omega), hl]
  split <;> rfl

/-- The checksum field does not depend on the four bytes it replaces. -/
theorem checkField_splice {input v : List Byte} (hv : v.length = 4) (h : 12 ≤ input.length) :
    checkField (splice input 8 v) = checkField input := by
  rw [checkField, splice_splice_same input 8 (by rw [hv]; rfl) (by omega), checkField]

/-- After `CS.APPLY` the input is the old one with its checksum field stored. -/
theorem afterApply_hasInput {s : State} {input : List Byte} (h : s.HasInput input) (hlow : 12 ≤ input.length) :
    (s.afterApply input).HasInput (splice input 8 (checkField input)) := by
  have hfit : 8 + (checkField input).length ≤ input.length := by rw [length_checkField]; omega
  refine ⟨by rw [length_splice _ _ _ hfit, afterApply_inLen, h.1], fun a ha => ?_⟩
  rw [length_splice _ _ _ hfit] at ha
  rw [read_afterApply, getElem?_splice _ _ _ hfit, length_checkField, h.2 a ha]

/-- Settles O17: the second command finds the same checksum, and stores it where it stands. -/
theorem csApplyIdempotent : Obligations.CsApplyIdempotent := by
  intro fl s input hin hlow hcap
  have hlen : (splice input 8 (checkField input)).length = input.length :=
    length_splice _ _ _ (by rw [length_checkField]; omega)
  refine ⟨s.afterApply input, (s.afterApply input).afterApply (splice input 8 (checkField input)),
    csApply_of_hasInput hin hlow hcap fl,
    csApply_of_hasInput (afterApply_hasInput hin hlow) (by omega) (by omega) fl, fun a => ?_⟩
  rw [read_afterApply, checkField_splice (length_checkField input) hlow, read_afterApply]
  split <;> rfl

/-! ### What lies in `IBUF` from `IN_LEN` on is not read (R30, R31) -/

/-- Where `x` is a next state, `y` is the same one but for `IBUF`, which holds the same bytes below `n`. -/
def AgreeBelow (n : Nat) (x y : Result) : Prop :=
  ∀ t, x = .next t → ∃ u, y = .next u ∧ u = { t with ibuf := u.ibuf } ∧ ∀ a, a < n → u.ibuf.read a = t.ibuf.read a

theorem agreeBelow_next {n : Nat} {t : State} {m : Mem} (hm : ∀ a, a < n → m.read a = t.ibuf.read a) :
    AgreeBelow n (.next t) (.next { t with ibuf := m }) := by
  rintro _ ⟨rfl⟩
  exact ⟨_, rfl, rfl, hm⟩

theorem agreeBelow_raise {n : Nat} {t : State} {m : Mem} {e : ErrorKind}
    (hm : ∀ a, a < n → m.read a = t.ibuf.read a) :
    AgreeBelow n (.next (t.raise e)) (.next (({ t with ibuf := m } : State).raise e)) :=
  agreeBelow_next (t := t.raise e) hm

theorem agreeBelow_finish {n : Nat} {t : State} {m : Mem} {out : List Byte} {warn : Bool}
    (hm : ∀ a, a < n → m.read a = t.ibuf.read a) :
    AgreeBelow n (.next (t.finish out warn)) (.next (({ t with ibuf := m } : State).finish out warn)) :=
  agreeBelow_next (t := t.finish out warn) hm

/-- The end of a command that wrote `KeyState`. -/
theorem agreeBelow_finish_keyState {n : Nat} {s : State} {m : Mem} {k : Bytes8} {out : List Byte} {warn : Bool}
    (hm : ∀ a, a < n → m.read a = s.ibuf.read a) :
    AgreeBelow n (.next (({ s with keyState := k } : State).finish out warn))
      (.next (({ s with keyState := k, ibuf := m } : State).finish out warn)) :=
  agreeBelow_finish (t := { s with keyState := k }) hm

/-- A branch on a condition that does not read `IBUF`. -/
theorem agreeBelow_ite {n : Nat} {c : Prop} [Decidable c] {x x' y y' : Result} (hx : AgreeBelow n x x')
    (hy : AgreeBelow n y y') : AgreeBelow n (if c then x else y) (if c then x' else y') := by
  split
  · exact hx
  · exact hy

theorem putCfgHeader_setIbuf (s : State) (m : Mem) (p : List Byte) :
    ({ s with ibuf := m } : State).putCfgHeader p = { s.putCfgHeader p with ibuf := m } := by
  unfold State.putCfgHeader
  split <;> rfl

/-- Reading a run depends on the bytes of the run alone. -/
theorem bytes_congr {m m' : Mem} {n : Nat} (h : ∀ a, a < n → m.read a = m'.read a) : m.bytes 0 n = m'.bytes 0 n := by
  rw [Mem.bytes, Mem.bytes, slots_eq_map_read, slots_eq_map_read, List.map_congr_left]
  intro a ha
  obtain ⟨_, hlt⟩ := List.mem_range'_1.1 ha
  exact h a (by omega)

/-- Equal bytes stay equal when both buffers take one write. -/
theorem read_write_congr {m m' : Mem} {a : Nat} (h : m.read a = m'.read a) (b : Nat) (bs : List Byte) :
    (m.write b bs).read a = (m'.write b bs).read a := by
  rw [read_write, read_write, h]

section
variable {s : State} {m : Mem} (hm : ∀ a, a < s.inLen.toNat → m.read a = s.ibuf.read a)
include hm

theorem withInput_agreeBelow {n : Nat} {k k' : List Byte → Result} (hk : ∀ input, AgreeBelow n (k input) (k' input)) :
    AgreeBelow n (s.withInput k) (({ s with ibuf := m } : State).withInput k') := by
  unfold State.withInput
  rw [bytes_congr hm]
  split
  · exact hk _
  · rintro _ ⟨⟩

theorem cipherPass_agreeBelow (f : Bytes8 → Bytes8 → Bytes8) :
    AgreeBelow s.inLen.toNat (cipherPass f s) (cipherPass f { s with ibuf := m }) :=
  agreeBelow_ite (agreeBelow_raise hm) (agreeBelow_ite (agreeBelow_raise hm)
    (withInput_agreeBelow hm fun _ => agreeBelow_finish_keyState hm))

/-- The one command that writes `IBUF` writes the same four bytes to both. -/
theorem csApply_agreeBelow (fl : CmdFlags) :
    AgreeBelow s.inLen.toNat (exec (.csApply fl) s) (exec (.csApply fl) { s with ibuf := m }) :=
  agreeBelow_ite (agreeBelow_raise hm) (agreeBelow_ite (agreeBelow_raise hm)
    (withInput_agreeBelow hm fun _ => agreeBelow_ite (agreeBelow_finish hm)
      (agreeBelow_finish fun a ha => read_write_congr (hm a ha) _ _)))

/-- The header step leaves `IBUF` as it is, so both ends after it agree. -/
theorem cfgExtract_agreeBelow (fl : CmdFlags) :
    AgreeBelow s.inLen.toNat (exec (.cfgExtract fl) s) (exec (.cfgExtract fl) { s with ibuf := m }) := by
  refine agreeBelow_ite (agreeBelow_raise hm) (agreeBelow_ite (agreeBelow_raise hm)
    (withInput_agreeBelow hm fun input => ?_))
  have hput := putCfgHeader_setIbuf { s with keyState := (codec Config.bcD s.keyState input).1 } m
    (codec Config.bcD s.keyState input).2
  dsimp only at hput ⊢
  rw [hput]
  have hhdr : ∀ a, a < s.inLen.toNat → m.read a =
      ({ s with keyState := (codec Config.bcD s.keyState input).1 }.putCfgHeader
        (codec Config.bcD s.keyState input).2).ibuf.read a := by
    simpa using hm
  refine agreeBelow_ite (agreeBelow_raise hhdr) ?_
  split
  · exact agreeBelow_raise hhdr
  · exact agreeBelow_finish hhdr

theorem nvExtract_agreeBelow (fl : CmdFlags) :
    AgreeBelow s.inLen.toNat (exec (.nvExtract fl) s) (exec (.nvExtract fl) { s with ibuf := m }) := by
  refine agreeBelow_ite (agreeBelow_raise hm) (agreeBelow_ite (agreeBelow_raise hm)
    (withInput_agreeBelow hm fun input => agreeBelow_ite (agreeBelow_raise hm) (agreeBelow_ite (agreeBelow_raise hm) ?_)))
  dsimp only
  split
  · exact agreeBelow_raise hm
  · exact agreeBelow_finish hm

/-- Every command runs alike on two input buffers that agree below `IN_LEN`: its branches do not read `IBUF` and its
input is the same. -/
theorem exec_agreeBelow (i : Instr) : AgreeBelow s.inLen.toNat (exec i s) (exec i { s with ibuf := m }) := by
  cases i with
  | ksReseed fl => exact agreeBelow_finish_keyState hm
  | ksNext fl => exact agreeBelow_finish_keyState hm
  | mgName fl => exact agreeBelow_finish hm
  | bcEnc fl => exact cipherPass_agreeBelow hm _
  | bcDec fl => exact cipherPass_agreeBelow hm _
  | cfgDecrypt fl => exact cipherPass_agreeBelow hm _
  | csCalc fl => exact agreeBelow_ite (agreeBelow_raise hm) (withInput_agreeBelow hm fun _ => agreeBelow_finish hm)
  | csVerify fl => exact agreeBelow_ite (agreeBelow_raise hm) (withInput_agreeBelow hm fun _ => agreeBelow_finish hm)
  | mgDerive fl => exact agreeBelow_ite (agreeBelow_raise hm) (withInput_agreeBelow hm fun _ => agreeBelow_finish hm)
  | csApply fl => exact csApply_agreeBelow hm fl
  | nvCrc8 fl =>
    exact agreeBelow_ite (agreeBelow_raise hm) (agreeBelow_ite (agreeBelow_raise hm)
      (withInput_agreeBelow hm fun _ => agreeBelow_finish hm))
  | nvWrap fl =>
    exact agreeBelow_ite (agreeBelow_raise hm) (agreeBelow_ite (agreeBelow_raise hm)
      (withInput_agreeBelow hm fun _ => agreeBelow_finish hm))
  | cfgWrap fl =>
    exact agreeBelow_ite (agreeBelow_raise hm) (agreeBelow_ite (agreeBelow_raise hm) (agreeBelow_ite (agreeBelow_raise hm)
      (withInput_agreeBelow hm fun _ => agreeBelow_ite (agreeBelow_raise hm) (agreeBelow_finish_keyState hm))))
  | cfgExtract fl => exact cfgExtract_agreeBelow hm fl
  | nvExtract fl => exact nvExtract_agreeBelow hm fl

end

/-- Settles O39: the agreement of the two runs, where the first is a next state. -/
theorem inputBeyondLengthIsNotRead : Obligations.InputBeyondLengthIsNotRead := by
  intro i s t m hm h
  exact exec_agreeBelow hm i t h

end Sys2Proof.Machine

/-! ## Encoding: the command word, the flags, and the host's pseudo-operations (spec/30_encoding.md)

A word is read in plain numbers: its code is `w % 256`, its flags are the three bits above that, its reserved bits are
`w / 2048`. Decoder and encoder are each said once in these numbers, and the statements on words compare the two. -/

namespace Sys2Proof

/-! ### The fields of a word (R50) -/

theorem reservedBitsClear_iff (w : Word) : reservedBitsClear w = true ↔ w.toNat / 2048 = 0 := by
  have hw := w.isLt
  rw [reservedBitsClear, beq_iff_eq, ← BitVec.toNat_inj, BitVec.extractLsb'_toNat, Nat.shiftRight_eq_div_pow]
  simp only [BitVec.toNat_ofNat]
  omega

theorem toNat_opcodeField (w : Word) : (w.extractLsb' 0 8).toNat = w.toNat % 256 := by
  simp [BitVec.extractLsb'_toNat]

theorem flagsOf_eq_testBit (w : Word) :
    flagsOf w = { f := w.toNat.testBit 8, mv := w.toNat.testBit 9, vv := w.toNat.testBit 10 } := rfl

/-- A flag as a number is 0 or 1, so equal numbers mean equal flags. -/
theorem eq_flagsOf_iff (fl : CmdFlags) (w : Word) :
    fl = flagsOf w ↔ fl.f.toNat = w.toNat / 256 % 2 ∧ fl.mv.toNat = w.toNat / 512 % 2 ∧
      fl.vv.toNat = w.toNat / 1024 % 2 := by
  have bit (b : Bool) (k : Nat) : b = w.toNat.testBit k ↔ b.toNat = w.toNat / 2 ^ k % 2 := by
    rw [← Nat.toNat_testBit, (Function.LeftInverse.injective Bool.ofNat_toNat).eq_iff]
  obtain ⟨f, mv, vv⟩ := fl
  rw [flagsOf_eq_testBit, CmdFlags.mk.injEq, bit, bit, bit]
  rfl

/-! ### The table of operation codes (R51) -/

theorem instrOf_opc_flags (i : Instr) : instrOf i.opc i.flags = some i := by
  cases i <;> rfl

theorem opc_toNat_bounds (i : Instr) : 1 ≤ i.opc.toNat ∧ i.opc.toNat ≤ 15 := by
  cases i <;> simp [Instr.opc]

/-- The table answers a command of the code it is asked for, with the flags it is given. -/
theorem opc_flags_of_instrOf {b : Byte} {fl : CmdFlags} {i : Instr} (h : instrOf b fl = some i) :
    i.opc.toNat = b.toNat ∧ i.flags = fl := by
  unfold instrOf at h
  split at h
  case h_16 => cases h
  all_goals
    rename_i hb
    cases h
    exact ⟨hb.symm, rfl⟩

theorem instrOf_eq_some_iff (b : Byte) (fl : CmdFlags) (i : Instr) :
    instrOf b fl = some i ↔ i.opc.toNat = b.toNat ∧ i.flags = fl := by
  refine ⟨opc_flags_of_instrOf, ?_⟩
  rintro ⟨hopc, rfl⟩
  rw [← BitVec.eq_of_toNat_eq hopc]
  exact instrOf_opc_flags i

/-- The fifteen codes 1 to 15 all have a command. -/
theorem exists_instrOf_eq_some {b : Byte} (h1 : 1 ≤ b.toNat) (h15 : b.toNat ≤ 15) (fl : CmdFlags) :
    ∃ i, instrOf b fl = some i := by
  unfold instrOf
  interval_cases b.toNat <;> exact ⟨_, rfl⟩

/-! ### Decoder and encoder in plain numbers -/

theorem decode_eq_ok_iff_instrOf (w : Word) (i : Instr) :
    decode w = .ok i ↔ reservedBitsClear w = true ∧ instrOf (w.extractLsb' 0 8) (flagsOf w) = some i := by
  unfold decode
  split
  · rename_i hr
    split
    · rename_i j hj
      simp [hr, hj]
    · rename_i hj
      simp [hj]
  · rename_i hr
    simp [hr]

/-- What the decoder reads: no reserved bit, the code of the command, and its flags. -/
theorem decode_eq_ok_iff (w : Word) (i : Instr) :
    decode w = .ok i ↔ w.toNat / 2048 = 0 ∧ i.opc.toNat = w.toNat % 256 ∧ i.flags = flagsOf w := by
  rw [decode_eq_ok_iff_instrOf, reservedBitsClear_iff, instrOf_eq_some_iff, toNat_opcodeField]

/-- The encoder's sum fits a word, so nothing of it is cut off. -/
theorem toNat_encode (i : Instr) :
    (encode i).toNat = i.opc.toNat + 256 * i.flags.f.toNat + 512 * i.flags.mv.toNat + 1024 * i.flags.vv.toNat := by
  have hopc := i.opc.isLt
  have hf := i.flags.f.toNat_lt
  have hmv := i.flags.mv.toNat_lt
  have hvv := i.flags.vv.toNat_lt
  rw [encode, BitVec.toNat_ofNat]
  omega

/-- Settles O2: both sides say that the fields of the word, read as numbers, are the command's code and flags. -/
theorem decodeInvertsEncode : Obligations.DecodeInvertsEncode := by
  intro w i
  have hopc := i.opc.isLt
  have hf := i.flags.f.toNat_lt
  have hmv := i.flags.mv.toNat_lt
  have hvv := i.flags.vv.toNat_lt
  rw [decode_eq_ok_iff, eq_flagsOf_iff, ← BitVec.toNat_inj, toNat_encode]
  omega

/-! ### Legal and illegal words (R50, R54) -/

theorem exists_decode_eq_ok_iff (w : Word) :
    (∃ i, decode w = .ok i) ↔ w.toNat / 2048 = 0 ∧ 1 ≤ w.toNat % 256 ∧ w.toNat % 256 ≤ 15 := by
  constructor
  · rintro ⟨i, hi⟩
    obtain ⟨hr, hopc, _⟩ := (decode_eq_ok_iff w i).1 hi
    exact ⟨hr, hopc ▸ opc_toNat_bounds i⟩
  · rintro ⟨hr, h1, h15⟩
    rw [← toNat_opcodeField] at h1 h15
    obtain ⟨i, hi⟩ := exists_instrOf_eq_some h1 h15 (flagsOf w)
    exact ⟨i, (decode_eq_ok_iff_instrOf w i).2 ⟨(reservedBitsClear_iff w).2 hr, hi⟩⟩

/-- A word with a reserved bit set or a code that is not assigned decodes to an error. -/
theorem exists_decode_eq_error {w : Word} (h : w.toNat / 2048 ≠ 0 ∨ w.toNat % 256 = 0 ∨ 16 ≤ w.toNat % 256) :
    ∃ e, decode w = .error e := by
  cases hd : decode w with
  | error e => exact ⟨e, rfl⟩
  | ok i =>
    have hlegal := (exists_decode_eq_ok_iff w).1 ⟨i, hd⟩
    omega

/-- Settles O1: the two sides of the test are the words that decode to an error and those that decode to a command. -/
theorem decodingIsTotal : Obligations.DecodingIsTotal := by
  intro w
  split
  · rename_i hillegal
    exact exists_decode_eq_error hillegal
  · rename_i hlegal
    obtain ⟨i, hi⟩ := (exists_decode_eq_ok_iff w).2 (by omega)
    obtain ⟨_, hopc, hflags⟩ := (decode_eq_ok_iff w i).1 hi
    exact ⟨i, hi, hopc, hflags.trans (flagsOf_eq_testBit w)⟩

/-- Settles O3: a legal word is the encoding of its command; the two illegal words are decoded. -/
theorem specWordsDecode : Obligations.SpecWordsDecode := by
  have decode_of_encode {w : Word} {i : Instr} (h : encode i = w) : decode w = .ok i := (decodeInvertsEncode w i).2 h
  exact ⟨decode_of_encode rfl, decode_of_encode rfl, decode_of_encode rfl, decode_of_encode rfl, decode_of_encode rfl,
    decode_of_encode rfl, decode_of_encode rfl, decode_of_encode rfl, by decide, by decide⟩

end Sys2Proof

namespace Sys2Proof.Machine

/-! ### A write of an illegal word (R54, R151) -/

/-- A write of an illegal word to `CMD` raises `IllegalCommand` in the state that holds the word. -/
theorem runCommand_of_decode_error {w : Word} {e : DecodeError} (h : decode w = .error e) (s : State) :
    runCommand w s = .next (({ s with cmd := w } : State).raise .illegalCommand) := by
  unfold runCommand
  rw [h]
  rfl

/-- Settles O4: the word decodes to an error, and `raise` touches `STATUS`, `OUT_LEN` and `OBUF` alone. -/
theorem illegalWordRaisesIllegalCommand : Obligations.IllegalWordRaisesIllegalCommand := by
  intro s w rest hscript hillegal
  obtain ⟨e, he⟩ := exists_decode_eq_error (w := w) (by omega)
  refine ⟨({ s with script := rest, cmd := w } : State).raise .illegalCommand, ?_, rfl⟩
  calc step s = runCommand w { s with script := rest } := step_of_script hscript
    _ = _ := runCommand_of_decode_error he _

/-! ### The flags a command reads (R51) -/

/-- Replacing a command's flags by others that agree on those it reads leaves its meaning. -/
theorem exec_congr_flags {i j : Instr} {fl : CmdFlags} (hj : instrOf i.opc fl = some j)
    (hf : i.opc = 0x0B#8 ∨ i.opc = 0x0E#8 → i.flags.f = fl.f)
    (hmv : i.opc = 0x0C#8 → i.flags.mv = fl.mv ∧ i.flags.vv = fl.vv) (s : State) : exec i s = exec j s := by
  cases i with
  | cfgExtract _ =>
    cases hj
    have hforce := hf (.inl rfl)
    simp only [Instr.flags] at hforce
    simp only [exec, execCfgExtract, hforce]
  | nvExtract _ =>
    cases hj
    have hforce := hf (.inr rfl)
    simp only [Instr.flags] at hforce
    simp only [exec, execNvExtract, hforce]
  | cfgWrap _ =>
    cases hj
    obtain ⟨hmagic, hversion⟩ := hmv rfl
    simp only [Instr.flags] at hmagic hversion
    simp only [exec, execCfgWrap, hmagic, hversion]
  | _ =>
    cases hj
    rfl

/-- Settles O37: the second command is the first one's code with its own flags. -/
theorem unreadFlagsAreIgnored : Obligations.UnreadFlagsAreIgnored := by
  intro i j s hopc hf hmv
  have hj : instrOf i.opc j.flags = some j := hopc ▸ instrOf_opc_flags j
  exact exec_congr_flags hj hf hmv s

/-! ### The old output is not read (R53, R14, R18, R19) -/

/-- The state with another `STATUS`, `OUT_LEN`, `RESULT` and `OBUF`. -/
def State.withOldOutput (s : State) (status outLen result : Word) (obuf : Mem) : State :=
  { s with status := status, outLen := outLen, result := result, obuf := obuf }

/-- Where `x` is a next state, `y` is the same one but for `RESULT`, which it leaves at `result` unless `x` is the
success of a command that `writes` it. -/
def AgreeButResult (writes : Prop) [Decidable writes] (result : Word) (x y : Result) : Prop :=
  ∀ t, x = .next t → y = .next { t with result := if writes ∧ t.status = 0#32 then t.result else result }

theorem errorStatus_ne_zero (e : ErrorKind) : errorStatus e ≠ 0#32 := by
  cases e <;> decide

section
variable {writes : Prop} [Decidable writes] {status outLen result : Word} {obuf : Mem}

/-- An error writes no `RESULT`. -/
theorem agreeButResult_raise {s : State} {e : ErrorKind} :
    AgreeButResult writes result (.next (s.raise e)) (.next ((s.withOldOutput status outLen result obuf).raise e)) := by
  rintro _ ⟨rfl⟩
  rw [if_neg fun h => errorStatus_ne_zero e h.2]
  rfl

/-- The success of a command that does not write `RESULT`. -/
theorem agreeButResult_finish {s : State} {out : List Byte} {warn : Bool} (hw : ¬ writes) :
    AgreeButResult writes result (.next (s.finish out warn))
      (.next ((s.withOldOutput status outLen result obuf).finish out warn)) := by
  rintro _ ⟨rfl⟩
  rw [if_neg fun h => hw h.1]
  rfl

/-- The success of a command that wrote `KeyState`. -/
theorem agreeButResult_finish_keyState {s : State} {k : Bytes8} {out : List Byte} (hw : ¬ writes) :
    AgreeButResult writes result (.next (({ s with keyState := k } : State).finish out false))
      (.next (({ s.withOldOutput status outLen result obuf with keyState := k } : State).finish out false)) :=
  agreeButResult_finish (s := { s with keyState := k }) hw

/-- The success of a command that writes `RESULT`. -/
theorem agreeButResult_finish_result {s : State} {v : Word} {out : List Byte} (hw : writes) :
    AgreeButResult writes result (.next (({ s with result := v } : State).finish out false))
      (.next (({ s.withOldOutput status outLen result obuf with result := v } : State).finish out false)) := by
  rintro _ ⟨rfl⟩
  rw [if_pos ⟨hw, rfl⟩]
  rfl

/-- A branch on a condition that does not read the old output. -/
theorem agreeButResult_ite {c : Prop} [Decidable c] {x x' y y' : Result} (hx : AgreeButResult writes result x x')
    (hy : AgreeButResult writes result y y') :
    AgreeButResult writes result (if c then x else y) (if c then x' else y') := by
  split
  · exact hx
  · exact hy

/-- The input is read from `IBUF` and `IN_LEN`, which both states share. -/
theorem agreeButResult_withInput {s : State} {k k' : List Byte → Result}
    (hk : ∀ input, AgreeButResult writes result (k input) (k' input)) :
    AgreeButResult writes result (s.withInput k) ((s.withOldOutput status outLen result obuf).withInput k') := by
  unfold State.withInput
  dsimp only [State.withOldOutput]
  split
  · exact hk _
  · rintro _ ⟨⟩

theorem cipherPass_agreeButResult (f : Bytes8 → Bytes8 → Bytes8) (s : State) (hw : ¬ writes) :
    AgreeButResult writes result (cipherPass f s) (cipherPass f (s.withOldOutput status outLen result obuf)) :=
  agreeButResult_ite agreeButResult_raise (agreeButResult_ite agreeButResult_raise
    (agreeButResult_withInput fun _ => agreeButResult_finish_keyState hw))

theorem putCfgHeader_withOldOutput (status outLen result : Word) (obuf : Mem) (s : State) (p : List Byte) :
    (s.withOldOutput status outLen result obuf).putCfgHeader p =
      (s.putCfgHeader p).withOldOutput status outLen result obuf := by
  unfold State.putCfgHeader
  split <;> rfl

theorem cfgExtract_agreeButResult (fl : CmdFlags) (s : State) (hw : ¬ writes) :
    AgreeButResult writes result (exec (.cfgExtract fl) s)
      (exec (.cfgExtract fl) (s.withOldOutput status outLen result obuf)) := by
  refine agreeButResult_ite agreeButResult_raise (agreeButResult_ite agreeButResult_raise
    (agreeButResult_withInput fun input => ?_))
  have hput := putCfgHeader_withOldOutput status outLen result obuf
    { s with keyState := (codec Config.bcD s.keyState input).1 } (codec Config.bcD s.keyState input).2
  dsimp only [State.withOldOutput] at hput ⊢
  rw [hput]
  refine agreeButResult_ite agreeButResult_raise ?_
  split
  · exact agreeButResult_raise
  · exact agreeButResult_finish hw

theorem nvExtract_agreeButResult (fl : CmdFlags) (s : State) (hw : ¬ writes) :
    AgreeButResult writes result (exec (.nvExtract fl) s)
      (exec (.nvExtract fl) (s.withOldOutput status outLen result obuf)) := by
  refine agreeButResult_ite agreeButResult_raise (agreeButResult_ite agreeButResult_raise
    (agreeButResult_withInput fun _ => agreeButResult_ite agreeButResult_raise
      (agreeButResult_ite agreeButResult_raise ?_)))
  dsimp only [State.withOldOutput]
  split
  · exact agreeButResult_raise
  · exact agreeButResult_finish hw

/-- Every command runs alike whatever the last one left: its branches and its input do not read that. -/
theorem exec_agreeButResult (i : Instr) (s : State) :
    AgreeButResult (i.opc.toNat ∈ [0x05, 0x06, 0x08, 0x0D]) result (exec i s)
      (exec i (s.withOldOutput status outLen result obuf)) := by
  cases i with
  | csCalc fl =>
    exact agreeButResult_ite agreeButResult_raise
      (agreeButResult_withInput fun _ => agreeButResult_finish_result (by simp [Instr.opc]))
  | csVerify fl =>
    exact agreeButResult_ite agreeButResult_raise
      (agreeButResult_withInput fun _ => agreeButResult_finish_result (by simp [Instr.opc]))
  | mgDerive fl =>
    exact agreeButResult_ite agreeButResult_raise
      (agreeButResult_withInput fun _ => agreeButResult_finish_result (by simp [Instr.opc]))
  | nvCrc8 fl =>
    exact agreeButResult_ite agreeButResult_raise (agreeButResult_ite agreeButResult_raise
      (agreeButResult_withInput fun _ => agreeButResult_finish_result (by simp [Instr.opc])))
  | ksReseed fl => exact agreeButResult_finish_keyState (by simp [Instr.opc])
  | ksNext fl => exact agreeButResult_finish_keyState (by simp [Instr.opc])
  | mgName fl => exact agreeButResult_finish (by simp [Instr.opc])
  | bcEnc fl => exact cipherPass_agreeButResult _ s (by simp [Instr.opc])
  | bcDec fl => exact cipherPass_agreeButResult _ s (by simp [Instr.opc])
  | cfgDecrypt fl => exact cipherPass_agreeButResult _ s (by simp [Instr.opc])
  | csApply fl =>
    exact agreeButResult_ite agreeButResult_raise (agreeButResult_ite agreeButResult_raise
      (agreeButResult_withInput fun _ =>
        agreeButResult_ite (agreeButResult_finish (by simp [Instr.opc])) (agreeButResult_finish (by simp [Instr.opc]))))
  | cfgExtract fl => exact cfgExtract_agreeButResult fl s (by simp [Instr.opc])
  | cfgWrap fl =>
    exact agreeButResult_ite agreeButResult_raise (agreeButResult_ite agreeButResult_raise
      (agreeButResult_ite agreeButResult_raise (agreeButResult_withInput fun _ =>
        agreeButResult_ite agreeButResult_raise (agreeButResult_finish_keyState (by simp [Instr.opc])))))
  | nvExtract fl => exact nvExtract_agreeButResult fl s (by simp [Instr.opc])
  | nvWrap fl =>
    exact agreeButResult_ite agreeButResult_raise (agreeButResult_ite agreeButResult_raise
      (agreeButResult_withInput fun _ => agreeButResult_finish (by simp [Instr.opc])))

end

/-- Settles O38: the agreement of the two runs, where the first is a next state. -/
theorem commandsIgnoreOldOutput : Obligations.CommandsIgnoreOldOutput := by
  intro i s t status outLen result obuf h
  exact exec_agreeButResult i s t h

/-! ### `LOAD` and `MOVE` (R40, R61) -/

/-- What the host writes from offset 0 on and declares in `IN_LEN` is the input. -/
theorem hasInput_of_write {s : State} {m : Mem} {bs : List Byte} (hm : s.ibuf = m.write 0 bs)
    (hl : s.inLen.toNat = bs.length) : s.HasInput bs :=
  ⟨hl, fun a ha => by rw [hm, read_write_inside m 0 bs a (Nat.zero_le a) (by omega), Nat.sub_zero]⟩

/-- A host write to `IBUF` inside the capacity stores its bytes. -/
theorem hostWriteBytes_ibuf_of_le {a : Nat} {bs : List Byte} (hb : a + bs.length ≤ Config.bufCap) (s : State) :
    hostWriteBytes .ibuf a bs s = .next { s with ibuf := s.ibuf.write a bs } := by
  unfold hostWriteBytes
  rw [overCapacity_false hb]
  rfl

/-- Settles O42: the first action stores the bytes, the second declares their number. -/
theorem loadSetsInput : Obligations.LoadSetsInput := by
  intro s bs rest hscript hcap
  have hlen : (BitVec.ofNat 32 bs.length).toNat = bs.length :=
    (BitVec.toNat_ofNat _ _).trans (Nat.mod_eq_of_lt (Nat.lt_of_le_of_lt hcap bufCap_lt))
  refine ⟨{ s with script := .wr 2 (BitVec.ofNat 32 bs.length) :: rest, ibuf := s.ibuf.write 0 bs },
    { s with script := rest, ibuf := s.ibuf.write 0 bs, inLen := BitVec.ofNat 32 bs.length }, ?_,
    rfl, hasInput_of_write rfl hlen, fun a ha => read_write_above _ 0 bs a (by omega), rfl⟩
  calc step s = hostWriteBytes .ibuf 0 bs { s with script := .wr 2 (BitVec.ofNat 32 bs.length) :: rest } :=
        step_of_script hscript
    _ = _ := hostWriteBytes_ibuf_of_le (by omega) _

/-- A `MOVE` of an output inside the capacity stores its bytes, copies `OUT_LEN`, and records the two reads. -/
theorem hostMove_of_hasOutput {s : State} {out : List Byte} (h : s.HasOutput out)
    (hcap : out.length ≤ Config.bufCap) :
    hostMove s = .next { s with ibuf := s.ibuf.write 0 out, inLen := s.outLen,
                                seen := .bytes .obuf 0 out :: .reg 3 s.outLen :: s.seen } := by
  have hread : (hostReadReg 3 s).HasOutput out := h
  have hbytes := hostBytes_of_hasOutput hread (a := 0) (n := out.length) (by omega)
  rw [List.drop_zero, List.take_length] at hbytes
  unfold hostMove
  simp only [h.1, overCapacity_false hcap, hbytes]
  rfl

/-- Settles O43: the step is the `MOVE`, which writes the output's bytes from offset 0 on. -/
theorem moveCopiesOutputToInput : Obligations.MoveCopiesOutputToInput := by
  intro s out rest hscript hout hcap
  have hrest : ({ s with script := rest } : State).HasOutput out := hout
  exact ⟨_, (step_of_script hscript).trans (hostMove_of_hasOutput hrest hcap), hasInput_of_write rfl hout.1,
    fun a ha => read_write_above _ 0 out a (by omega), rfl⟩

end Sys2Proof.Machine

/-! ## Key stream: the step with its carries, the key's windows, and the period (spec/40_keystream.md)

Bytes 0 to 2 of `KeyState` are a 24-bit counter, lowest byte first, which a step advances by 8: that one fact gives the
period. -/

namespace Sys2Proof.Machine

/-! ### The step, in plain numbers (R70) -/

/-- Byte 0 wraps exactly when it is within `KS_STEP` of its end. -/
theorem add_ksStep_lt_iff (b : Byte) : b + Config.ksStep < b ↔ 0xF8 ≤ b.toNat := by
  rw [BitVec.lt_def, BitVec.toNat_add, show Config.ksStep.toNat = 8 from rfl]
  omega

/-- A byte wraps under a carry exactly when it is full. -/
theorem add_one_lt_iff (b : Byte) : b + 1#8 < b ↔ b.toNat = 0xFF := by
  rw [BitVec.lt_def, BitVec.toNat_add, show (1#8).toNat = 1 from rfl]
  omega

theorem nextKeyState_b0_toNat (k : Bytes8) : (nextKeyState k).b0.toNat = (k.b0.toNat + 8) % 256 := by
  rw [nextKeyState_frame]
  exact BitVec.toNat_add _ _

theorem nextKeyState_b1_toNat (k : Bytes8) :
    (nextKeyState k).b1.toNat = if 0xF8 ≤ k.b0.toNat then (k.b1.toNat + 1) % 256 else k.b1.toNat := by
  simp only [nextKeyState, add_ksStep_lt_iff, add_one_lt_iff]
  split
  · split <;> exact BitVec.toNat_add _ _
  · rfl

theorem nextKeyState_b2_toNat (k : Bytes8) :
    (nextKeyState k).b2.toNat =
      if 0xF8 ≤ k.b0.toNat ∧ k.b1.toNat = 0xFF then (k.b2.toNat + 1) % 256 else k.b2.toNat := by
  simp only [nextKeyState, add_ksStep_lt_iff, add_one_lt_iff, ite_and]
  split
  · split
    · exact BitVec.toNat_add _ _
    · rfl
  · rfl

/-- A step writes bytes 0 to 2 alone. -/
theorem nextKeyState_tail (k : Bytes8) :
    nextKeyState k =
      { k with b0 := (nextKeyState k).b0, b1 := (nextKeyState k).b1, b2 := (nextKeyState k).b2 } := by
  rw [nextKeyState_frame]

/-! ### The windows of the key (R70) -/

/-- A window above the lowest byte does not see that byte. -/
theorem window_append_above {m : Nat} (x : BitVec m) (b : Byte) (r : Nat) :
    ((x ++ b) >>> (r + 8)).setWidth 8 = (x >>> r).setWidth 8 := by
  ext j hj
  simp [BitVec.getLsbD_append, show ¬ r + 8 + j < 8 by omega, show r + 8 + j - 8 = r + j by omega]

/-- A window that begins inside the lowest byte joins the rest of that byte to the low bits of the byte above it. -/
theorem window_append_inside {m : Nat} (x : BitVec m) (b : Byte) {r : Nat} (h : r ≤ 8) :
    ((x ++ b) >>> r).setWidth 8 = (x.setWidth 8 <<< (8 - r)) ||| (b >>> r) := by
  ext j hj
  simp only [BitVec.getElem_setWidth, BitVec.getLsbD_ushiftRight, BitVec.getLsbD_append, BitVec.getElem_or,
    BitVec.getElem_shiftLeft, BitVec.getElem_ushiftRight]
  by_cases hlow : r + j < 8
  · simp [hlow, show j < 8 - r by omega]
  · simp [hlow, show ¬ j < 8 - r by omega, show r + j - 8 = j - (8 - r) by omega,
      BitVec.getLsbD_of_ge b (r + j) (by omega)]

/-- The key's bytes are the eight overlapping windows of the stepped `KeyState`. -/
theorem keyOf_toList (k : Bytes8) :
    (keyOf k).toList =
      [k.b0,
        (k.b0 <<< 7) ||| (k.b1 >>> 1),
        (k.b1 <<< 6) ||| (k.b2 >>> 2),
        (k.b2 <<< 5) ||| (k.b3 >>> 3),
        (k.b3 <<< 4) ||| (k.b4 >>> 4),
        (k.b4 <<< 3) ||| (k.b5 >>> 5),
        (k.b5 <<< 2) ||| (k.b6 >>> 6),
        (k.b6 <<< 1) ||| (k.b7 >>> 7)] := by
  simp [keyOf, Bytes8.toList, keyByte, be64, window_append_above, window_append_inside,
    BitVec.setWidth_append_eq_right (w' := 8)]

/-! ### The counter in bytes 0 to 2 (R73) -/

/-- Bytes 0 to 2 of a `KeyState` as one number, byte 0 lowest, as the carries of R70 run. -/
def keyCounter (k : Bytes8) : Nat := k.b0.toNat + 256 * k.b1.toNat + 65536 * k.b2.toNat

theorem keyCounter_lt (k : Bytes8) : keyCounter k < 2 ^ 24 := by
  unfold keyCounter
  omega

/-- The carries make a step one addition. -/
theorem keyCounter_nextKeyState (k : Bytes8) : keyCounter (nextKeyState k) = (keyCounter k + 8) % 2 ^ 24 := by
  simp only [keyCounter, nextKeyState_b0_toNat, nextKeyState_b1_toNat, nextKeyState_b2_toNat]
  split <;> split <;> omega

theorem keyCounter_iterate_nextKeyState (n : Nat) (k : Bytes8) :
    keyCounter (nextKeyState^[n] k) = (keyCounter k + 8 * n) % 2 ^ 24 := by
  induction n with
  | zero => exact (Nat.mod_eq_of_lt (keyCounter_lt k)).symm
  | succ n ih =>
    rw [Function.iterate_succ_apply', keyCounter_nextKeyState, ih]
    omega

theorem iterate_nextKeyState_tail (n : Nat) (k : Bytes8) :
    nextKeyState^[n] k =
      { k with b0 := (nextKeyState^[n] k).b0, b1 := (nextKeyState^[n] k).b1, b2 := (nextKeyState^[n] k).b2 } := by
  induction n with
  | zero => rfl
  | succ n ih => rw [Function.iterate_succ_apply', nextKeyState_tail, ih]

/-- `KeyState`s that differ at most in bytes 0 to 2 are told apart by the counter. -/
theorem eq_of_keyCounter_eq {k k' : Bytes8} (htail : k' = { k with b0 := k'.b0, b1 := k'.b1, b2 := k'.b2 })
    (h : keyCounter k' = keyCounter k) : k' = k := by
  unfold keyCounter at h
  have h0 : k'.b0 = k.b0 := BitVec.eq_of_toNat_eq (by omega)
  have h1 : k'.b1 = k.b1 := BitVec.eq_of_toNat_eq (by omega)
  have h2 : k'.b2 = k.b2 := BitVec.eq_of_toNat_eq (by omega)
  rw [htail, h0, h1, h2]

/-- Every `KeyState` comes round after 2097152 steps and not before. -/
theorem iterate_nextKeyState_eq_self_iff (n : Nat) (k : Bytes8) : nextKeyState^[n] k = k ↔ 2097152 ∣ n := by
  have hcount := keyCounter_iterate_nextKeyState n k
  have hlt := keyCounter_lt k
  constructor
  · intro h
    rw [h] at hcount
    omega
  · intro h
    exact eq_of_keyCounter_eq (iterate_nextKeyState_tail n k) (by omega)

/-! ### The two commands (R71, R72) -/

/-- `KS.NEXT` in any state steps `KeyState` and ends with the key of the stepped state. -/
theorem exec_ksNext (fl : CmdFlags) (s : State) :
    exec (.ksNext fl) s =
      .next ({ s with keyState := nextKeyState s.keyState }.finish (keyOf (nextKeyState s.keyState)).toList false) := rfl

/-- The output of a command that ends with the eight bytes `k`. -/
theorem finish_toList_hasOutput {k : Bytes8} {out : List Byte} (h : k.toList = out) (s : State) :
    (s.finish k.toList false).HasOutput out := by
  subst h
  exact finish_hasOutput s _ false (by rw [length_toList]; omega)

/-! ### The statements -/

/-- Settles O6: the step's carries byte by byte, and the output is the key's windows. -/
theorem ksNextReturnsSteppedKey : Obligations.KsNextReturnsSteppedKey := by
  intro fl s
  exact ⟨_, exec_ksNext fl s, rfl, nextKeyState_b0_toNat _, nextKeyState_b1_toNat _, nextKeyState_b2_toNat _,
    nextKeyState_tail _, finish_toList_hasOutput (keyOf_toList _) _⟩

/-- Settles O8: the period of every `KeyState`, at the seed. -/
theorem keyStreamPeriod : Obligations.KeyStreamPeriod :=
  fun n => iterate_nextKeyState_eq_self_iff n _

/-- Settles O7: one step from the seed, and its key. -/
theorem ksReseedRewindsKeyStream : Obligations.KsReseedRewindsKeyStream := by
  intro fl fl' s
  have hstep : nextKeyState Config.ksSeed = ⟨0x56, 0x74, 0x67, 0x72, 0x42, 0x61, 0x6B, 0x00⟩ := by decide
  have hkey : (keyOf (nextKeyState Config.ksSeed)).toList = [0x56, 0x3A, 0x19, 0xEE, 0x24, 0x13, 0x85, 0xD6] := by
    decide
  exact ⟨_, _, rfl, rfl, exec_ksNext fl' _, hstep, finish_toList_hasOutput hkey _⟩

end Sys2Proof.Machine

/-! ## Block cipher: one cipher pass, and decryption after encryption (spec/41_block_cipher.md)

The three commands are one operation, `cipherPass`. Its two errors and its success are each said once, and both
statements read from them. -/

namespace Sys2Proof.Machine

/-! ### The three ends of a cipher pass (R82, R153, R157) -/

/-- The state of a successful cipher pass over `input`: `KeyState` after the pass, and the processed blocks. -/
def State.afterCipherPass (f : Bytes8 → Bytes8 → Bytes8) (s : State) (input : List Byte) : State :=
  { s with keyState := (codec f s.keyState input).1 }.finish (codec f s.keyState input).2 false

theorem cipherPass_of_tooLarge {s : State} (h : Config.bufCap < s.inLen.toNat) (f : Bytes8 → Bytes8 → Bytes8) :
    cipherPass f s = .next (s.raise .tooLarge) :=
  if_pos ((overCapacity_iff _).2 h)

theorem cipherPass_of_invalidLength {s : State} (hcap : s.inLen.toNat ≤ Config.bufCap) (h8 : s.inLen.toNat % 8 ≠ 0)
    (f : Bytes8 → Bytes8 → Bytes8) : cipherPass f s = .next (s.raise .invalidLength) := by
  rw [cipherPass, overCapacity_false hcap, if_neg Bool.false_ne_true, if_pos h8]

theorem cipherPass_of_hasInput {s : State} {input : List Byte} (h : s.HasInput input) (h8 : input.length % 8 = 0)
    (hcap : input.length ≤ Config.bufCap) (f : Bytes8 → Bytes8 → Bytes8) :
    cipherPass f s = .next (s.afterCipherPass f input) := by
  have hlen := h.1
  rw [cipherPass, overCapacity_false (by omega), if_neg Bool.false_ne_true, if_neg (by omega), withInput_of_hasInput h]
  rfl

/-! ### What a successful pass leaves (R80) -/

theorem length_codec_of_blocks {input : List Byte} (h8 : input.length % 8 = 0) (f : Bytes8 → Bytes8 → Bytes8)
    (ks : Bytes8) : (codec f ks input).2.length = input.length :=
  (codec_isCipherOf f ks input h8).1

theorem afterCipherPass_hasOutput {input : List Byte} (h8 : input.length % 8 = 0)
    (hcap : input.length ≤ Config.bufCap) (f : Bytes8 → Bytes8 → Bytes8) (s : State) :
    (s.afterCipherPass f input).HasOutput (codec f s.keyState input).2 :=
  finish_hasOutput _ _ false (by
    rw [length_codec_of_blocks h8]
    exact Nat.lt_of_le_of_lt hcap bufCap_lt)

/-- Whole blocks come out as long as they went in, so `OUT_LEN` is `IN_LEN`. -/
theorem afterCipherPass_frame {s : State} {input : List Byte} (h : s.HasInput input) (h8 : input.length % 8 = 0)
    (f : Bytes8 → Bytes8 → Bytes8) :
    s.afterCipherPass f input =
      { s with keyState := (s.afterCipherPass f input).keyState, obuf := (s.afterCipherPass f input).obuf,
               outLen := s.inLen, status := 0#32 } := by
  have hlen : BitVec.ofNat 32 (codec f s.keyState input).2.length = s.inLen := by
    rw [length_codec_of_blocks h8, ← h.1, BitVec.ofNat_toNat, BitVec.setWidth_eq]
  rw [State.afterCipherPass, State.finish, hlen]
  rfl

/-! ### The statements -/

/-- A command that is `cipherPass` raises the two errors in their order, and else makes one pass of R80. -/
theorem runsCipherPass_of_exec_eq {i : Instr} {f : Bytes8 → Bytes8 → Bytes8} (hi : exec i = cipherPass f) :
    RunsCipherPass i f := by
  intro s
  rw [FailsWith, FailsWith, hi]
  split
  · rename_i hlarge
    exact ⟨_, cipherPass_of_tooLarge hlarge f, rfl⟩
  · rename_i hcap
    split
    · rename_i h8
      exact ⟨_, cipherPass_of_invalidLength (by omega) h8 f, rfl⟩
    · rename_i h8
      intro input hin
      have hlen := hin.1
      have hblocks : input.length % 8 = 0 := by omega
      have hfit : input.length ≤ Config.bufCap := by omega
      exact ⟨_, _, cipherPass_of_hasInput hin hblocks hfit f, afterCipherPass_hasOutput hblocks hfit f s,
        codec_isCipherOf f s.keyState input hblocks, codec_keyState f s.keyState input,
        afterCipherPass_frame hin hblocks f⟩

/-- Settles O9: each of the three commands is `cipherPass` in its direction. -/
theorem cipherCommandsRunOnePass : Obligations.CipherCommandsRunOnePass :=
  fun _ => ⟨runsCipherPass_of_exec_eq rfl, runsCipherPass_of_exec_eq rfl, runsCipherPass_of_exec_eq rfl⟩

/-- A decryption pass over what an encryption pass made of `p` from the same `KeyState` ends with `p`. -/
theorem cipherPass_dec_enc {u : State} {ks : Bytes8} {p : List Byte} (hks : u.keyState = ks)
    (hin : u.HasInput (codec Config.bcE ks p).2) (h8 : p.length % 8 = 0) (hcap : p.length ≤ Config.bufCap) :
    ∃ v, cipherPass Config.bcD u = .next v ∧ v.status = 0#32 ∧ v.HasOutput p := by
  subst hks
  have hlen := length_codec_of_blocks h8 Config.bcE u.keyState
  have hout := afterCipherPass_hasOutput (hlen ▸ h8) (hlen ▸ hcap) Config.bcD u
  rw [codec_dec_enc _ _ h8] at hout
  exact ⟨_, cipherPass_of_hasInput hin (hlen ▸ h8) (hlen ▸ hcap) _, rfl, hout⟩

/-- Settles O10: `BC.DEC` and `CFG.DECRYPT` are one decryption pass, which undoes the encryption pass. -/
theorem decryptionInvertsEncryption : Obligations.DecryptionInvertsEncryption := by
  intro fl s p hin h8 hcap
  refine ⟨s.afterCipherPass Config.bcE p, _, cipherPass_of_hasInput hin h8 hcap _,
    afterCipherPass_hasOutput h8 hcap _ s, fun fl' u hks hu => ?_⟩
  have hdec := cipherPass_dec_enc hks hu h8 hcap
  exact ⟨hdec, hdec⟩

end Sys2Proof.Machine

/-! ## Checksum: the word sum in plain numbers, its folds, and the stored field (spec/42_checksum.md)

The machine's 32-bit operations are first read as plain numbers (`toNat_checksum`). The two folds are then one
end-around carry, `endAround`, which is told by its residue modulo 65535: both the equality with the big-endian sum and
the zero after `CS.APPLY` are facts about that residue. -/

namespace Sys2Proof.Machine

/-! ### The accumulator and its folds as numbers (R90) -/

/-- Joining a byte below. -/
theorem toNat_append_byte {n : Nat} (x : BitVec n) (b : Byte) : (x ++ b).toNat = 256 * x.toNat + b.toNat := by
  rw [BitVec.toNat_append, ← Nat.shiftLeft_add_eq_or_of_lt b.isLt, Nat.shiftLeft_eq]
  omega

theorem le16_eq_ofNat (lo hi : Byte) : le16 lo hi = BitVec.ofNat 32 (lo.toNat + 256 * hi.toNat) := by
  apply BitVec.eq_of_toNat_eq
  rw [le16, BitVec.toNat_setWidth, toNat_append_byte, BitVec.toNat_ofNat, Nat.add_comm]

/-- Two bytes in front leave the odd last byte. -/
theorem oddByte_cons_cons (lo hi : Byte) (rest : List Byte) : oddByte (lo :: hi :: rest) = oddByte rest := by
  have hparity : (rest.length + 1 + 1) % 2 = rest.length % 2 := Nat.add_mod_right _ 2
  rw [oddByte, oddByte, List.length_cons, List.length_cons, hparity]
  split
  · obtain ⟨k, hk⟩ : ∃ k, rest.length = k + 1 := ⟨rest.length - 1, by omega⟩
    rw [hk]
    rfl
  · rfl

/-- Adding the odd byte first or last gives the same sum, so the loop adds `leWordSum` to its accumulator. -/
theorem sumWords_add_oddByte (acc : Word) (bs : List Byte) :
    sumWords (acc + oddByte bs) bs = acc + BitVec.ofNat 32 (leWordSum bs) := by
  induction bs using leWordSum.induct generalizing acc with
  | case1 lo hi rest ih =>
    calc sumWords (acc + oddByte (lo :: hi :: rest)) (lo :: hi :: rest)
        = sumWords (acc + le16 lo hi + oddByte rest) rest := by
          rw [oddByte_cons_cons, sumWords, BitVec.add_assoc, BitVec.add_comm (oddByte rest), ← BitVec.add_assoc]
      _ = acc + BitVec.ofNat 32 (leWordSum (lo :: hi :: rest)) := by
          rw [ih, le16_eq_ofNat, leWordSum, BitVec.ofNat_add _ (leWordSum rest), BitVec.add_assoc]
  | case2 b =>
    rw [leWordSum, BitVec.ofNat_toNat]
    rfl
  | case3 => rfl

theorem toNat_sumWords (bs : List Byte) : (sumWords (oddByte bs) bs).toNat = leWordSum bs % 2 ^ 32 := by
  have h := sumWords_add_oddByte 0#32 bs
  rw [BitVec.zero_add, BitVec.zero_add] at h
  rw [h, BitVec.toNat_ofNat]

theorem toNat_lowHalf (w : Word) : ((w.extractLsb' 0 16).setWidth 32).toNat = w.toNat % 65536 := by
  rw [BitVec.toNat_setWidth, BitVec.extractLsb'_toNat, Nat.shiftRight_zero]
  omega

theorem toNat_highHalf (w : Word) : ((w.extractLsb' 16 16).setWidth 32).toNat = w.toNat / 65536 := by
  have hw := w.isLt
  rw [BitVec.toNat_setWidth, BitVec.extractLsb'_toNat, Nat.shiftRight_eq_div_pow]
  omega

theorem toNat_fold16 (w : Word) : (fold16 w).toNat = foldNat w.toNat := by
  have hw := w.isLt
  rw [fold16, BitVec.toNat_add, toNat_lowHalf, toNat_highHalf, foldNat, Nat.mod_eq_of_lt (by omega)]

theorem toNat_swap16 (c : BitVec 16) : (swap16 c).toNat = c.toNat % 256 * 256 + c.toNat / 256 := by
  have hc := c.isLt
  rw [swap16, toNat_append_byte]
  simp only [BitVec.extractLsb'_toNat, Nat.shiftRight_eq_div_pow]
  omega

/-! ### The end-around carry -/

theorem endAround_le (n : Nat) : endAround n ≤ 65535 := by
  unfold endAround
  split <;> omega

/-- An end-around-carry sum is told by its residue modulo 65535 and by being 0 or not. -/
theorem eq_endAround {m n : Nat} (hm : m ≤ 65535) (hmod : m % 65535 = n % 65535) (hzero : m = 0 ↔ n = 0) :
    m = endAround n := by
  unfold endAround
  split <;> omega

theorem endAround_mod (n : Nat) : endAround n % 65535 = n % 65535 := by
  unfold endAround
  split <;> omega

theorem endAround_eq_zero_iff (n : Nat) : endAround n = 0 ↔ n = 0 := by
  unfold endAround
  split <;> omega

/-- The second fold always completes the carry of a 32-bit accumulator. -/
theorem foldNat_foldNat {n : Nat} (h : n < 2 ^ 32) : foldNat (foldNat n) = endAround n := by
  have hfold (k : Nat) : foldNat k % 65535 = k % 65535 ∧ (foldNat k = 0 ↔ k = 0) := by
    unfold foldNat
    omega
  have hle : foldNat (foldNat n) ≤ 65535 := by
    unfold foldNat
    omega
  obtain ⟨hmod1, hzero1⟩ := hfold n
  obtain ⟨hmod2, hzero2⟩ := hfold (foldNat n)
  exact eq_endAround hle (hmod2.trans hmod1) (hzero2.trans hzero1)

/-! ### The checksum as a number (R90, R92, R96) -/

/-- The complement of the folded accumulator, `c` of R90, before the byte swap. -/
def complementNat (bs : List Byte) : Nat := 65535 - endAround (leWordSum bs % 2 ^ 32)

theorem checksumNat_of_ne_nil {bs : List Byte} (h : bs ≠ []) :
    checksumNat bs = complementNat bs % 256 * 256 + complementNat bs / 256 := by
  rw [checksumNat, if_neg h, foldNat_foldNat (Nat.mod_lt _ (by decide)), complementNat]

theorem checksumNat_lt {bs : List Byte} (h : bs ≠ []) : checksumNat bs < 65536 := by
  rw [checksumNat_of_ne_nil h, complementNat]
  omega

/-- The machine's checksum is the one in plain numbers. -/
theorem toNat_checksum (bs : List Byte) : (checksum bs).toNat = checksumNat bs := by
  by_cases h : bs = []
  · rw [h]
    rfl
  · have hle := endAround_le (leWordSum bs % 2 ^ 32)
    have hfolded : (fold16 (fold16 (sumWords (oddByte bs) bs))).toNat = endAround (leWordSum bs % 2 ^ 32) := by
      rw [toNat_fold16, toNat_fold16, toNat_sumWords, foldNat_foldNat (Nat.mod_lt _ (by decide))]
    rw [checksum, if_neg (by simpa using h), checksumNat_of_ne_nil h, complementNat]
    rw [BitVec.toNat_setWidth, toNat_swap16, BitVec.toNat_not, BitVec.extractLsb'_toNat, hfolded, Nat.shiftRight_zero,
      Nat.mod_eq_of_lt (a := endAround _) (by omega), Nat.mod_eq_of_lt (by omega)]

theorem checksum_eq_zero_iff (bs : List Byte) : checksum bs = 0#32 ↔ checksumNat bs = 0 := by
  rw [← toNat_checksum, ← BitVec.toNat_inj]
  rfl

theorem verify_iff (bs : List Byte) : verify bs = true ↔ checksumNat bs = 0 := by
  rw [verify, beq_iff_eq, checksum_eq_zero_iff]

/-! ### The three commands: their error and their success (R91, R92, R93, R153) -/

/-- A command that begins with the capacity test fails with `TooLarge` above the capacity. -/
theorem failsWith_tooLarge {i : Instr} {s : State} {x : Result} (hcap : Config.bufCap < s.inLen.toNat)
    (hi : exec i s = if overCapacity s.inLen.toNat then .next (s.raise .tooLarge) else x) : FailsWith i s 0x06#32 :=
  ⟨_, hi.trans (if_pos ((overCapacity_iff _).2 hcap)), rfl⟩

theorem csCalc_of_hasInput {s : State} {input : List Byte} (h : s.HasInput input)
    (hcap : s.inLen.toNat ≤ Config.bufCap) (fl : CmdFlags) :
    exec (.csCalc fl) s = .next ({ s with result := checksum input }.finish [] false) := by
  change execCsCalc fl s = _
  rw [execCsCalc, overCapacity_false hcap, if_neg Bool.false_ne_true, withInput_of_hasInput h]

theorem csVerify_of_hasInput {s : State} {input : List Byte} (h : s.HasInput input)
    (hcap : s.inLen.toNat ≤ Config.bufCap) (fl : CmdFlags) :
    exec (.csVerify fl) s =
      .next ({ s with result := if checksumNat input = 0 then 1#32 else 0#32 }.finish [] false) := by
  change execCsVerify fl s = _
  rw [execCsVerify, overCapacity_false hcap, if_neg Bool.false_ne_true, withInput_of_hasInput h]
  simp only [verify_iff]

/-- `CS.APPLY` on an empty input does nothing but end. -/
theorem csApply_of_hasInput_nil {s : State} (h : s.HasInput []) (fl : CmdFlags) :
    exec (.csApply fl) s = .next (s.finish [] false) := by
  have hlen : s.inLen.toNat = 0 := h.1
  rw [csApply_eq_withInput (by omega) (by omega), withInput_of_hasInput h]
  rfl

theorem csApply_of_shortInput {s : State} (hcap : s.inLen.toNat ≤ Config.bufCap)
    (hshort : 1 ≤ s.inLen.toNat ∧ s.inLen.toNat ≤ 11) (fl : CmdFlags) :
    exec (.csApply fl) s = .next (s.raise .shortInput) := by
  change execCsApply fl s = _
  rw [execCsApply, overCapacity_false hcap, if_neg Bool.false_ne_true, if_pos hshort]

/-! ### The checksum field (R93, R95) -/

/-- Zeroing the field byte by byte is splicing four zeros in. -/
theorem splice_zeros_eq_zeroField {bs : List Byte} (h : 12 ≤ bs.length) :
    splice bs 8 [0#8, 0#8, 0#8, 0#8] = zeroField bs := by
  apply List.ext_getElem?
  intro i
  rw [getElem?_splice _ _ _ (by simpa using h), zeroField]
  by_cases hi : 8 ≤ i ∧ i < 12
  · obtain rfl | rfl | rfl | rfl : i = 8 ∨ i = 9 ∨ i = 10 ∨ i = 11 := by omega
    all_goals
      simp [List.getElem?_set]
      omega
  · rw [if_neg (by simpa using hi), List.getElem?_set_ne (by omega), List.getElem?_set_ne (by omega),
      List.getElem?_set_ne (by omega), List.getElem?_set_ne (by omega)]

theorem zeroField_ne_nil {bs : List Byte} (h : bs ≠ []) : zeroField bs ≠ [] := by
  simpa [zeroField] using h

/-- A value below 65536 is stored as `00 00` and its two bytes. -/
theorem toBe32_of_lt {v : Word} (h : v.toNat < 65536) :
    toBe32 v = [0#8, 0#8, BitVec.ofNat 8 (v.toNat / 256), BitVec.ofNat 8 (v.toNat % 256)] := by
  simp only [toBe32, List.cons.injEq, and_true, true_and, ← BitVec.toNat_inj, BitVec.extractLsb'_toNat,
    BitVec.toNat_ofNat, Nat.shiftRight_eq_div_pow, Nat.pow_zero, Nat.div_one]
  omega

/-- What `CS.APPLY` stores, in plain numbers. -/
theorem checkField_eq {bs : List Byte} (h : 12 ≤ bs.length) :
    checkField bs = [0#8, 0#8, BitVec.ofNat 8 (checksumNat (zeroField bs) / 256),
      BitVec.ofNat 8 (checksumNat (zeroField bs) % 256)] := by
  have hne : zeroField bs ≠ [] := zeroField_ne_nil (List.ne_nil_of_length_pos (by omega))
  rw [checkField, splice_zeros_eq_zeroField h, toBe32_of_lt (by rw [toNat_checksum]; exact checksumNat_lt hne),
    toNat_checksum]

/-- The four bytes of the field after `CS.APPLY`. -/
theorem read_afterApply_field (s : State) {input : List Byte} (h : 12 ≤ input.length) {k : Nat} (hk : k < 4) :
    (s.afterApply input).ibuf.read (8 + k) =
      [0#8, 0#8, BitVec.ofNat 8 (checksumNat (zeroField input) / 256),
        BitVec.ofNat 8 (checksumNat (zeroField input) % 256)][k]? := by
  rw [read_afterApply, if_pos (by omega), Nat.add_sub_cancel_left, checkField_eq h]

/-- The word sum splits after an even number of bytes. -/
theorem leWordSum_append {a : List Byte} (h : a.length % 2 = 0) (b : List Byte) :
    leWordSum (a ++ b) = leWordSum a + leWordSum b := by
  induction a using leWordSum.induct with
  | case1 lo hi rest ih =>
    rw [List.length_cons, List.length_cons] at h
    rw [List.cons_append, List.cons_append, leWordSum, leWordSum, ih (by omega), ← Nat.add_assoc]
  | case2 b => exact absurd h (by simp)
  | case3 => rw [List.nil_append, leWordSum, Nat.zero_add]

/-- A field at offset 8 is summed as two whole words, apart from the other bytes. -/
theorem leWordSum_splice {bs v : List Byte} (hv : v.length = 4) (h : 12 ≤ bs.length) :
    leWordSum (splice bs 8 v) = leWordSum (splice bs 8 [0#8, 0#8, 0#8, 0#8]) + leWordSum v := by
  have hhead : (bs.take 8).length = 8 := List.length_take_of_le (by omega)
  have hsplice (w : List Byte) (hw : w.length = 4) :
      leWordSum (splice bs 8 w) = leWordSum (bs.take 8) + leWordSum w + leWordSum (bs.drop 12) := by
    rw [splice, leWordSum_append (by rw [List.length_append]; omega), leWordSum_append (by omega), hw]
  have hzero : leWordSum [0#8, 0#8, 0#8, 0#8] = 0 := rfl
  rw [hsplice v hv, hsplice [0#8, 0#8, 0#8, 0#8] rfl, hzero]
  omega

/-- The stored field's two words add the complement of the rest's folded sum. -/
theorem leWordSum_checkField {bs : List Byte} (h : 12 ≤ bs.length) :
    leWordSum (checkField bs) = complementNat (zeroField bs) := by
  have hne : zeroField bs ≠ [] := zeroField_ne_nil (List.ne_nil_of_length_pos (by omega))
  have hle : complementNat (zeroField bs) ≤ 65535 := Nat.sub_le _ _
  have hswap := checksumNat_of_ne_nil hne
  have hhigh : checksumNat (zeroField bs) / 256 = complementNat (zeroField bs) % 256 := by omega
  have hlow : checksumNat (zeroField bs) % 256 = complementNat (zeroField bs) / 256 := by omega
  rw [checkField_eq h, hhigh, hlow]
  simp only [leWordSum, BitVec.toNat_ofNat]
  omega

/-- What the complement adds to an accumulator reaches a multiple of 65535, and not 0. -/
theorem endAround_add_complement (n : Nat) : endAround (n + (65535 - endAround n)) = 65535 := by
  have hle := endAround_le n
  have hmod := endAround_mod n
  have hzero := endAround_eq_zero_iff n
  exact (eq_endAround (by omega) (by omega) (by omega)).symm

/-- That multiple is no further than the last one below the wrap, `2^32 - 1 = 65537 * 65535`. -/
theorem add_complement_lt {n : Nat} (h : n < 2 ^ 32) : n + (65535 - endAround n) < 2 ^ 32 := by
  have hmod := endAround_mod n
  have hzero := endAround_eq_zero_iff n
  by_cases hn : n = 0
  · omega
  · obtain ⟨k, hk⟩ : 65535 ∣ n + (65535 - endAround n) := by
      have hle := endAround_le n
      omega
    omega

/-- An input with its checksum field stored has the checksum 0 (R95 (b)). -/
theorem checksumNat_splice_checkField {bs : List Byte} (h : 12 ≤ bs.length) :
    checksumNat (splice bs 8 (checkField bs)) = 0 := by
  have hlen := length_splice bs 8 (checkField bs) (by rw [length_checkField]; omega)
  have hcomp : complementNat (splice bs 8 (checkField bs)) = 0 := by
    rw [complementNat, leWordSum_splice (length_checkField bs) h, leWordSum_checkField h, splice_zeros_eq_zeroField h,
      complementNat, Nat.add_mod, Nat.mod_eq_of_lt (a := 65535 - _) (by omega),
      Nat.mod_eq_of_lt (add_complement_lt (Nat.mod_lt _ (by decide))), endAround_add_complement]
  rw [checksumNat_of_ne_nil (List.ne_nil_of_length_pos (by omega)), hcomp]

/-! ### The big-endian sum (R94) -/

/-- Each of the words, an odd last byte among them, adds 65535 at most. -/
theorem leWordSum_le (bs : List Byte) : leWordSum bs ≤ 65535 * ((bs.length + 1) / 2) := by
  induction bs using leWordSum.induct with
  | case1 lo hi rest ih =>
    rw [leWordSum, List.length_cons, List.length_cons]
    omega
  | case2 b =>
    rw [leWordSum, List.length_singleton]
    omega
  | case3 => rfl

/-- Modulo 65535 a byte swap is a multiplication by 256, so it commutes with the sum. -/
theorem beWordSum_mod_and_eq_zero_iff (bs : List Byte) :
    beWordSum bs % 65535 = 256 * leWordSum bs % 65535 ∧ (beWordSum bs = 0 ↔ leWordSum bs = 0) := by
  induction bs using leWordSum.induct with
  | case1 lo hi rest ih =>
    rw [beWordSum, leWordSum]
    omega
  | case2 b =>
    rw [beWordSum, leWordSum]
    omega
  | case3 => exact ⟨rfl, Iff.rfl⟩

theorem checksumNat_eq_endAround {bs : List Byte} (hne : bs ≠ []) (hlen : bs.length ≤ 131074) :
    checksumNat bs = 65535 - endAround (beWordSum bs) := by
  have hbound := leWordSum_le bs
  have hnowrap : leWordSum bs % 2 ^ 32 = leWordSum bs := Nat.mod_eq_of_lt (by omega)
  obtain ⟨hbe, hbe0⟩ := beWordSum_mod_and_eq_zero_iff bs
  have hle := endAround_le (leWordSum bs)
  have hmod := endAround_mod (leWordSum bs)
  have hzero := endAround_eq_zero_iff (leWordSum bs)
  have hlt := checksumNat_lt hne
  have hsum : 65535 - checksumNat bs = endAround (beWordSum bs) := by
    rw [checksumNat_of_ne_nil hne, complementNat, hnowrap]
    exact eq_endAround (by omega) (by omega) (by omega)
  omega

/-! ### The statements -/

/-- Settles O11: the command ends with `checksum`, which is `checksumNat`. -/
theorem csCalcFoldsWordSum : Obligations.CsCalcFoldsWordSum := by
  intro fl s
  split_ifs with hlarge
  · exact failsWith_tooLarge hlarge rfl
  · intro input hin
    exact ⟨_, csCalc_of_hasInput hin (by omega) fl, toNat_checksum input, rfl⟩

/-- Settles O12: `verify` is the test of `checksumNat` for 0. -/
theorem csVerifyTestsZeroChecksum : Obligations.CsVerifyTestsZeroChecksum := by
  intro fl s
  split_ifs with hlarge
  · exact failsWith_tooLarge hlarge rfl
  · intro input hin
    exact ⟨_, csVerify_of_hasInput hin (by omega) fl, rfl⟩

/-- Settles O13: up to 131074 bytes the accumulator does not wrap, and a byte swap commutes with the end-around
carry. -/
theorem checksumIsInternetChecksum : Obligations.ChecksumIsInternetChecksum := by
  intro fl s input hin hne hlen hcap
  refine ⟨_, csCalc_of_hasInput hin (hin.1 ▸ hcap) fl, ?_⟩
  rw [finish_result, toNat_checksum, checksumNat_eq_endAround hne hlen]

/-- Settles O14: the three successes at the empty input. -/
theorem emptyBufferChecksum : Obligations.EmptyBufferChecksum := by
  intro fl s hlen
  have hin : s.HasInput [] := ⟨by rw [hlen]; rfl, fun a ha => absurd ha (Nat.not_lt_zero a)⟩
  have hcap : s.inLen.toNat ≤ Config.bufCap := hin.1 ▸ Nat.zero_le _
  exact ⟨⟨_, csCalc_of_hasInput hin hcap fl, rfl⟩, ⟨_, csVerify_of_hasInput hin hcap fl, rfl⟩,
    ⟨_, csApply_of_hasInput_nil hin fl, rfl⟩⟩

/-- Settles O15: the two errors, the empty input, and the stored field byte by byte. -/
theorem csApplyStoresChecksum : Obligations.CsApplyStoresChecksum := by
  intro fl s
  split_ifs with hlarge hshort
  · exact failsWith_tooLarge hlarge rfl
  · exact ⟨_, csApply_of_shortInput (by omega) hshort fl, rfl⟩
  · intro input hin
    split_ifs with hempty
    · subst hempty
      exact ⟨_, csApply_of_hasInput_nil hin fl, rfl, fun _ _ => rfl, rfl⟩
    · have hlen := hin.1
      have hpos := List.length_pos_of_ne_nil hempty
      have hlow : 12 ≤ input.length := by omega
      have hfield (k : Nat) (hk : k < 4) := read_afterApply_field s hlow hk
      refine ⟨_, csApply_of_hasInput hin hlow (by omega) fl, rfl, fun a ha => ?_,
        hfield 0 (by decide), hfield 1 (by decide), hfield 2 (by decide), hfield 3 (by decide)⟩
      rw [read_afterApply, if_neg (by omega)]

/-- Settles O16: after `CS.APPLY` the input has its field stored, and its checksum is 0. -/
theorem applyThenVerifyHolds : Obligations.ApplyThenVerifyHolds := by
  intro fl s input hin hlow hcap
  have hstored := afterApply_hasInput hin hlow
  have hzero := checksumNat_splice_checkField hlow
  have hfits : (s.afterApply input).inLen.toNat ≤ Config.bufCap := hin.1 ▸ hcap
  exact ⟨_, csApply_of_hasInput hin hlow hcap fl, afterApply_status s input,
    ⟨_, csVerify_of_hasInput hstored hfits fl, if_pos hzero⟩,
    ⟨_, csCalc_of_hasInput hstored hfits fl, (checksum_eq_zero_iff _).2 hzero⟩⟩

end Sys2Proof.Machine

/-! ## Registry: the folded name buffer, and the first row of a magic (spec/43_magic_registry.md)

Two facts carry the family: byte `j` of a little-endian word is the byte stored at its offset plus `j`, and the search of
the table ends at the first row that matches. -/

namespace Sys2Proof.Machine

/-! ### The fold byte by byte (R8, R62, R100) -/

/-- The name buffer holds the name below 16 and zeros beyond its end. -/
theorem byteAt_nameBuf (s : List Byte) {i : Nat} (h : i < 16) : byteAt (nameBuf s) i = byteAt s i := by
  rw [byteAt_eq, byteAt_eq, nameBuf, Config.nameMax, List.getElem?_take_of_lt h, List.getElem?_append]
  by_cases hi : i < s.length
  · rw [if_pos (by rw [List.length_take]; omega), List.getElem?_take_of_lt h]
  · rw [if_neg (by rw [List.length_take]; omega), List.getElem?_eq_none (by omega : s.length ≤ i),
      List.getElem?_replicate, if_pos (by omega)]
    rfl

/-- Byte `j` of a little-endian word, counted from its low end, is the byte stored at `a + j`. -/
theorem extractLsb'_le32At (s : List Byte) (a : Nat) {j : Nat} (h : j < 4) :
    (le32At s a).extractLsb' (8 * j) 8 = byteAt s (a + j) := by
  rw [← BitVec.setWidth_ushiftRight_eq_extractLsb]
  obtain rfl | rfl | rfl | rfl : j = 0 ∨ j = 1 ∨ j = 2 ∨ j = 3 := by omega
  all_goals simp [le32At, window_append_above, BitVec.setWidth_append_eq_right (w' := 8)]

theorem extractLsb'_deriveMagic (s : List Byte) {j : Nat} (h : j < 4) :
    (deriveMagic s).extractLsb' (8 * j) 8 =
      byteAt s j ^^^ byteAt s (j + 4) ^^^ byteAt s (j + 8) ^^^ byteAt s (j + 12) := by
  have hword (a : Nat) (ha : a ≤ 12) : (le32At (nameBuf s) a).extractLsb' (8 * j) 8 = byteAt s (j + a) := by
    rw [extractLsb'_le32At _ _ h, byteAt_nameBuf s (by omega), Nat.add_comm]
  rw [deriveMagic, BitVec.extractLsb'_xor, BitVec.extractLsb'_xor, BitVec.extractLsb'_xor, hword 0 (by decide),
    hword 4 (by decide), hword 8 (by decide), hword 12 (by decide), Nat.add_zero]

theorem mgDerive_of_hasInput {s : State} {input : List Byte} (h : s.HasInput input)
    (hcap : s.inLen.toNat ≤ Config.bufCap) (fl : CmdFlags) :
    exec (.mgDerive fl) s = .next ({ s with result := deriveMagic input }.finish [] false) := by
  change execMgDerive fl s = _
  rw [execMgDerive, overCapacity_false hcap, if_neg Bool.false_ne_true, withInput_of_hasInput h]

/-! ### The search of the table (R102, R103) -/

/-- The first row with the magic names it; where no row has it, the name is `unknown`. -/
theorem modelName_cases (rows : List Config.RegistryRow) (m : Word) :
    (∃ before row after, rows = before ++ row :: after ∧ row.magic = m ∧ (∀ q ∈ before, q.magic ≠ m) ∧
        modelName rows m = row.name) ∨
      ((∀ q ∈ rows, q.magic ≠ m) ∧ modelName rows m = Config.unknownName) := by
  unfold modelName
  cases hfind : rows.find? (fun r => r.magic == m) with
  | some row =>
    obtain ⟨hrow, before, after, hrows, hbefore⟩ := List.find?_eq_some_iff_append.1 hfind
    exact .inl ⟨before, row, after, hrows, by simpa using hrow, by simpa using hbefore, rfl⟩
  | none => exact .inr ⟨by simpa using hfind, rfl⟩

/-- The mandatory row of `WNDR4500v2` is found whatever the open rows are. -/
theorem modelName_registry_wndr : modelName Config.registry 0x62744915#32 = Config.wndrName := rfl

/-- The mandatory row of `unknown` is found whatever the open rows are. -/
theorem modelName_registry_zero : modelName Config.registry 0#32 = Config.unknownName := rfl

theorem exec_mgName (fl : CmdFlags) (s : State) :
    exec (.mgName fl) s = .next (s.finish (modelName Config.registry s.argMagic) false) := rfl

/-- The name of the magic is the output: it is short enough for `OUT_LEN`. -/
theorem finish_modelName_hasOutput (s : State) (m : Word) :
    (s.finish (modelName Config.registry m) false).HasOutput (modelName Config.registry m) := by
  have hlen := (length_modelName m).2
  exact finish_hasOutput s _ false (by omega)

/-! ### The statements -/

/-- Settles O18: the command ends with `deriveMagic`, read byte by byte. -/
theorem mgDeriveFoldsNameBuffer : Obligations.MgDeriveFoldsNameBuffer := by
  intro fl s
  split_ifs with hlarge
  · exact failsWith_tooLarge hlarge rfl
  · intro input hin
    exact ⟨_, mgDerive_of_hasInput hin (by omega) fl, rfl, fun _ hj => extractLsb'_deriveMagic input hj⟩

/-- Settles O19: the output is `modelName` of the table, which is the first row's name or `unknown`. -/
theorem mgNameFindsFirstRow : Obligations.MgNameFindsFirstRow := by
  intro fl s
  obtain ⟨hpos, hmax⟩ := length_modelName s.argMagic
  exact ⟨_, _, exec_mgName fl s, finish_modelName_hasOutput s _, rfl, hpos, hmax,
    modelName_cases Config.registry s.argMagic⟩

/-- Settles O20: each of the two magics is found in its mandatory row. -/
theorem mgNameKnowsMandatoryModels : Obligations.MgNameKnowsMandatoryModels := by
  intro fl s
  have hname : ∃ t, exec (.mgName fl) s = .next t ∧ t.HasOutput (modelName Config.registry s.argMagic) :=
    ⟨_, exec_mgName fl s, finish_modelName_hasOutput s _⟩
  constructor
  · intro hmagic
    rwa [hmagic, modelName_registry_wndr] at hname
  · intro hmagic
    rwa [hmagic, modelName_registry_zero] at hname

end Sys2Proof.Machine

/-! ## Configuration: the wrapped image field by field, and the way back (spec/44_config_routines.md)

The image of `cfg_build` is written out as the row of its fields, `cfgImage`, from which each field reads off. What
`CFG.EXTRACT` does after the header step is one chain of three tests, `endCfgExtract`. The round trip is then the second
test met by the wrapped image. -/

namespace Sys2Proof.Machine

/-! ### The image of `cfg_build` (R56, R111) -/

/-- The image of a payload for a magic, a version and a stored checksum, field after field. -/
def cfgImage (payload : List Byte) (magic version check : Word) : List Byte :=
  toBe32 magic ++ toBe32 (BitVec.ofNat 32 (payload.length + 24)) ++ toBe32 check ++ toBe32 version ++
    List.replicate 8 0#8 ++ payload

theorem zeroField_cfgImage (p : List Byte) (m v c : Word) : zeroField (cfgImage p m v c) = cfgImage p m v 0#32 := rfl

/-- `cfg_build` fills in the fields and stores the checksum of the image with a zero there. -/
theorem cfgBuild_eq_cfgImage (p : List Byte) (m v : Word) :
    cfgBuild p m v = cfgImage p m v (checksum (cfgImage p m v 0#32)) := rfl

theorem drop_cfgBuild (p : List Byte) (m v : Word) : (cfgBuild p m v).drop 24 = p := rfl

theorem be32At_cfgBuild_magic (p : List Byte) (m v : Word) : be32At (cfgBuild p m v) 0 = m := by
  rw [cfgBuild_eq_cfgImage]
  exact be32_of_toBe32 m

theorem toNat_cfgBuild_length {p : List Byte} (hmax : p.length ≤ Config.cfgMax) (m v : Word) :
    (be32At (cfgBuild p m v) 4).toNat = p.length + 24 := by
  have hupper := cfgMax_upper
  have hfield : be32At (cfgBuild p m v) 4 = BitVec.ofNat 32 (p.length + 24) := be32_of_toBe32 _
  rw [hfield, BitVec.toNat_ofNat, Nat.mod_eq_of_lt (by omega)]

theorem toNat_cfgBuild_check (p : List Byte) (m v : Word) :
    (be32At (cfgBuild p m v) 8).toNat = checksumNat (zeroField (cfgBuild p m v)) := by
  have hfield : be32At (cfgBuild p m v) 8 = checksum (cfgImage p m v 0#32) := be32_of_toBe32 _
  rw [hfield, cfgBuild_eq_cfgImage, zeroField_cfgImage, toNat_checksum]

theorem be32At_cfgBuild_version (p : List Byte) (m v : Word) : be32At (cfgBuild p m v) 12 = v := by
  rw [cfgBuild_eq_cfgImage]
  exact be32_of_toBe32 v

theorem byteAt_cfgBuild_reserved (p : List Byte) (m v : Word) {j : Nat} (hlow : 16 ≤ j) (hhigh : j < 24) :
    byteAt (cfgBuild p m v) j = 0#8 := by
  rw [cfgBuild_eq_cfgImage]
  obtain rfl | rfl | rfl | rfl | rfl | rfl | rfl | rfl :
    j = 16 ∨ j = 17 ∨ j = 18 ∨ j = 19 ∨ j = 20 ∨ j = 21 ∨ j = 22 ∨ j = 23 := by omega
  all_goals rfl

/-- A built image has the checksum 0: its field is the one that `CS.APPLY` stores (R95 (b)). -/
theorem checksumNat_cfgBuild (p : List Byte) (m v : Word) : checksumNat (cfgBuild p m v) = 0 := by
  have hbuild : cfgBuild p m v = splice (cfgBuild p m v) 8 (checkField (cfgBuild p m v)) := rfl
  rw [hbuild]
  exact checksumNat_splice_checkField (by rw [length_cfgBuild]; omega)

theorem cfgBuild_length_mod {p : List Byte} (h8 : p.length % 8 = 0) (m v : Word) : (cfgBuild p m v).length % 8 = 0 := by
  rw [length_cfgBuild]
  omega

theorem length_cfgBuild_le {p : List Byte} (hmax : p.length ≤ Config.cfgMax) (m v : Word) :
    (cfgBuild p m v).length ≤ Config.bufCap := by
  have hcap := cfgImage_le_bufCap
  rw [length_cfgBuild]
  omega

/-! ### `CFG.WRAP`: its errors and its success (R118) -/

theorem cfgWrap_of_missingOption {s : State} (hcap : s.inLen.toNat ≤ Config.bufCap) {fl : CmdFlags}
    (hopt : fl.mv = false ∨ fl.vv = false) : exec (.cfgWrap fl) s = .next (s.raise .missingOption) := by
  change execCfgWrap fl s = _
  rw [execCfgWrap, overCapacity_false hcap, if_neg Bool.false_ne_true, if_pos hopt]

theorem cfgWrap_of_overMax {s : State} (hcap : s.inLen.toNat ≤ Config.bufCap) {fl : CmdFlags}
    (hopt : ¬ (fl.mv = false ∨ fl.vv = false)) (hmax : Config.cfgMax < s.inLen.toNat) :
    exec (.cfgWrap fl) s = .next (s.raise .tooLarge) := by
  change execCfgWrap fl s = _
  rw [execCfgWrap, overCapacity_false hcap, if_neg Bool.false_ne_true, if_neg hopt, if_pos hmax]

/-- Past the errors raised without a look at the payload, a whole number of blocks is wrapped by one encryption pass over
the built image. -/
theorem cfgWrap_of_hasInput {s : State} {payload : List Byte} (h : s.HasInput payload) {fl : CmdFlags}
    (hopt : ¬ (fl.mv = false ∨ fl.vv = false)) (hmax : payload.length ≤ Config.cfgMax) :
    exec (.cfgWrap fl) s = .next (if payload.length % 8 ≠ 0 then s.raise .invalidLength
      else s.afterCipherPass Config.bcE (cfgBuild payload s.argMagic s.argVersion)) := by
  have hlen := h.1
  have hcap := cfgImage_le_bufCap
  change execCfgWrap fl s = _
  rw [execCfgWrap, overCapacity_false (by omega), if_neg Bool.false_ne_true, if_neg hopt, if_neg (by omega),
    withInput_of_hasInput h]
  dsimp only
  rw [length_cfgBuild, show (payload.length + 24) % 8 = payload.length % 8 by omega]
  split <;> rfl

/-! ### `CFG.EXTRACT`: the header step (R110, R114) -/

/-- The header step writes the four header registers alone. -/
theorem putCfgHeader_frame (s : State) (p : List Byte) :
    s.putCfgHeader p =
      { s with hdrMagic := (s.putCfgHeader p).hdrMagic, hdrLength := (s.putCfgHeader p).hdrLength,
               hdrCheck := (s.putCfgHeader p).hdrCheck, hdrVersion := (s.putCfgHeader p).hdrVersion } := by
  unfold State.putCfgHeader
  split <;> rfl

theorem putCfgHeader_hasCfgHeader (s : State) (p : List Byte) : (s.putCfgHeader p).HasCfgHeader p := by
  unfold State.HasCfgHeader State.putCfgHeader
  split <;> exact ⟨rfl, rfl, rfl, rfl⟩

/-- The state in which `CFG.EXTRACT` makes its tests: the key stream advanced over the input, the header of the plain
image `p` parsed. -/
def State.afterCfgHeader (s : State) (input p : List Byte) : State :=
  { s with keyState := nextKeyState^[input.length / 8] s.keyState }.putCfgHeader p

/-! ### `CFG.EXTRACT`: the length step and the end (R115, R116, R117) -/

/-- The declared length of the plain image `p` is its own, and not too large (R116). -/
abbrev CfgLengthFits (p : List Byte) : Prop :=
  24 ≤ p.length ∧ (be32At p 4).toNat = p.length ∧ p.length ≤ Config.cfgMax + 24

/-- How `CFG.EXTRACT` ends for the plain image `p`. -/
def State.endCfgExtract (s : State) (force : Bool) (p : List Byte) : State :=
  if force = false ∧ checksumNat p ≠ 0 then s.raise .checksumMismatch
  else if CfgLengthFits p then s.finish (p.drop 24) false
  else if force = false then s.raise .lengthMismatch
  else s.finish ((p.drop 24).take (min (wrapSub (be32At p 4) 24) Config.cfgMax)) true

/-- The size that the header of `p` declares for the payload, as the length step computes it. -/
def cfgPayloadSize (p : List Byte) : Nat := if 24 ≤ p.length then (cfgLength p - 24#32).toNat else 0

/-- The length step, with the declared size by its name. -/
theorem cfgLengthStep_eq_payloadSize (force : Bool) (p : List Byte) :
    cfgLengthStep Config.cfgMax force p =
      if 24 ≤ p.length ∧ cfgPayloadSize p ≤ Config.cfgMax ∧ cfgPayloadSize p = p.length - 24 then
        some (cfgPayloadSize p, false)
      else if force then some (min (cfgPayloadSize p) (min Config.cfgMax (p.length - 24)), true)
      else none := rfl

/-- The machine's subtraction is the wrapping one in plain numbers. -/
theorem cfgPayloadSize_eq_wrapSub {p : List Byte} (hlow : 24 ≤ p.length) :
    cfgPayloadSize p = wrapSub (be32At p 4) 24 := by
  rw [cfgPayloadSize, if_pos hlow, cfgLength, BitVec.toNat_sub, wrapSub, show (24#32).toNat = 24 from rfl]
  omega

/-- The wrapping difference is the size of what follows the header exactly when the declared length is the image's. -/
theorem wrapSub_eq_iff {l : Word} {n : Nat} (hlow : 24 ≤ n) (hn : n < 2 ^ 32) :
    wrapSub l 24 = n - 24 ↔ l.toNat = n := by
  unfold wrapSub
  omega

/-- The test of the length step, in plain numbers. -/
theorem cfgLengthFits_iff {p : List Byte} (hp : p.length < 2 ^ 32) :
    (24 ≤ p.length ∧ cfgPayloadSize p ≤ Config.cfgMax ∧ cfgPayloadSize p = p.length - 24) ↔ CfgLengthFits p := by
  by_cases hlow : 24 ≤ p.length
  · have hsize := wrapSub_eq_iff (l := be32At p 4) hlow hp
    rw [cfgPayloadSize_eq_wrapSub hlow, CfgLengthFits, ← hsize]
    omega
  · exact iff_of_false (fun h => hlow h.1) fun h => hlow h.1

theorem cfgLengthStep_of_fits {p : List Byte} (hp : p.length < 2 ^ 32) (h : CfgLengthFits p) (force : Bool) :
    cfgLengthStep Config.cfgMax force p = some (p.length - 24, false) := by
  have htest := (cfgLengthFits_iff hp).2 h
  have ⟨_, _, hsize⟩ := htest
  rw [cfgLengthStep_eq_payloadSize, if_pos htest, hsize]

theorem cfgLengthStep_of_not_fits {p : List Byte} (hp : p.length < 2 ^ 32) (h : ¬ CfgLengthFits p) (force : Bool) :
    cfgLengthStep Config.cfgMax force p =
      if force then some (min (cfgPayloadSize p) (min Config.cfgMax (p.length - 24)), true) else none := by
  rw [cfgLengthStep_eq_payloadSize, if_neg (mt (cfgLengthFits_iff hp).1 h)]

/-- The forced length asks for no more than what is present; a buffer shorter than a header has nothing after it. -/
theorem slice_forcedLength (p : List Byte) :
    slice p 24 (min (cfgPayloadSize p) (min Config.cfgMax (p.length - 24))) =
      (p.drop 24).take (min (wrapSub (be32At p 4) 24) Config.cfgMax) := by
  by_cases hlow : 24 ≤ p.length
  · rw [cfgPayloadSize_eq_wrapSub hlow, slice, ← Nat.min_assoc, ← List.take_take, ← List.length_drop,
      List.take_length]
  · rw [slice, List.drop_eq_nil_of_le (by omega), List.take_nil, List.take_nil]

theorem verify_eq_false_iff (bs : List Byte) : verify bs = false ↔ checksumNat bs ≠ 0 := by
  rw [← Bool.not_eq_true, verify_iff]

/-! ### `CFG.EXTRACT`: its errors and its success -/

theorem cfgExtract_of_invalidLength {s : State} (hcap : s.inLen.toNat ≤ Config.bufCap) (h8 : s.inLen.toNat % 8 ≠ 0)
    (fl : CmdFlags) : exec (.cfgExtract fl) s = .next (s.raise .invalidLength) := by
  change execCfgExtract fl s = _
  rw [execCfgExtract, overCapacity_false hcap, if_neg Bool.false_ne_true, if_pos h8]

/-- Past the two errors the command makes the header step on the plain image and ends by the tests on it. -/
theorem cfgExtract_of_hasInput {s : State} {input p : List Byte} (h : s.HasInput input)
    (hp : IsCipherOf Config.bcD s.keyState input p) (h8 : input.length % 8 = 0) (hcap : input.length ≤ Config.bufCap)
    (fl : CmdFlags) :
    exec (.cfgExtract fl) s = .next ((s.afterCfgHeader input p).endCfgExtract fl.f p) := by
  have hlen := h.1
  have hplen : p.length < 2 ^ 32 := hp.1 ▸ Nat.lt_of_le_of_lt hcap bufCap_lt
  change execCfgExtract fl s = _
  rw [execCfgExtract, overCapacity_false (by omega), if_neg Bool.false_ne_true, if_neg (by omega),
    withInput_of_hasInput h]
  dsimp only
  rw [codec_keyState, codec_eq_of_isCipherOf h8 hp]
  simp only [verify_eq_false_iff]
  rw [State.endCfgExtract, State.afterCfgHeader]
  split_ifs with hsum hfits hforce
  · rfl
  · rw [cfgLengthStep_of_fits hplen hfits]
    dsimp only
    rw [slice, ← List.length_drop, List.take_length]
  · rw [cfgLengthStep_of_not_fits hplen hfits, hforce]
    rfl
  · rw [cfgLengthStep_of_not_fits hplen hfits, if_pos (Bool.eq_true_of_not_eq_false hforce)]
    dsimp only
    rw [slice_forcedLength]

/-! ### What the end of `CFG.EXTRACT` leaves -/

/-- The end writes what the end of any command writes. -/
theorem exists_endCfgExtract_eq (s : State) (force : Bool) (p : List Byte) :
    ∃ obuf outLen status, s.endCfgExtract force p = { s with obuf := obuf, outLen := outLen, status := status } := by
  unfold State.endCfgExtract
  split_ifs
  all_goals exact ⟨_, _, _, rfl⟩

/-- Whatever the tests say, the header registers and `KeyState` are as the header step left them. -/
theorem afterCfgHeader_endCfgExtract_frame (s : State) (input p : List Byte) (force : Bool) {t : State}
    (ht : t = (s.afterCfgHeader input p).endCfgExtract force p) :
    t.HasCfgHeader p ∧ t.keyState = nextKeyState^[input.length / 8] s.keyState ∧
      t = { s with keyState := t.keyState, hdrMagic := t.hdrMagic, hdrLength := t.hdrLength,
                   hdrCheck := t.hdrCheck, hdrVersion := t.hdrVersion, obuf := t.obuf,
                   outLen := t.outLen, status := t.status } := by
  obtain ⟨obuf, outLen, status, hend⟩ := exists_endCfgExtract_eq (s.afterCfgHeader input p) force p
  rw [ht, hend]
  refine ⟨putCfgHeader_hasCfgHeader _ p, putCfgHeader_keyState _ p, ?_⟩
  rw [State.afterCfgHeader, putCfgHeader_frame]

/-! ### The way back (R84, R119) -/

/-- An image is the decryption of its encryption from the same `KeyState`. -/
theorem isCipherOf_codec_bcE {b : List Byte} (h8 : b.length % 8 = 0) (ks : Bytes8) :
    IsCipherOf Config.bcD ks (codec Config.bcE ks b).2 b := by
  have hdec := codec_isCipherOf Config.bcD ks (codec Config.bcE ks b).2 (by rwa [length_codec_of_blocks h8])
  rwa [codec_dec_enc ks b h8] at hdec

theorem cfgBuild_lengthFits {p : List Byte} (hmax : p.length ≤ Config.cfgMax) (m v : Word) :
    CfgLengthFits (cfgBuild p m v) := by
  have hlength := length_cfgBuild p m v
  exact ⟨by omega, by rw [toNat_cfgBuild_length hmax, hlength], by omega⟩

/-! ### The statements -/

/-- Settles O21: the four errors, then the encryption of the built image, whose fields read off. -/
theorem cfgWrapEncryptsImage : Obligations.CfgWrapEncryptsImage := by
  intro fl s
  split_ifs with hlarge hopt hmax
  · exact failsWith_tooLarge hlarge rfl
  · exact ⟨_, cfgWrap_of_missingOption (by omega) hopt, rfl⟩
  · exact ⟨_, cfgWrap_of_overMax (by omega) hopt hmax, rfl⟩
  · intro payload hin
    have hfit : payload.length ≤ Config.cfgMax := hin.1 ▸ Nat.not_lt.1 hmax
    have hexec := cfgWrap_of_hasInput hin hopt hfit
    split_ifs with h8
    · rw [if_pos h8] at hexec
      exact ⟨_, hexec, rfl⟩
    · rw [if_neg h8] at hexec
      have hblocks := cfgBuild_length_mod (not_not.1 h8) s.argMagic s.argVersion
      refine ⟨_, cfgBuild payload s.argMagic s.argVersion, _, hexec,
        afterCipherPass_hasOutput hblocks (length_cfgBuild_le hfit _ _) _ s, codec_isCipherOf _ _ _ hblocks,
        length_cfgBuild _ _ _, be32At_cfgBuild_magic _ _ _, toNat_cfgBuild_length hfit _ _,
        toNat_cfgBuild_check _ _ _, be32At_cfgBuild_version _ _ _,
        fun _ => byteAt_cfgBuild_reserved _ _ _, drop_cfgBuild _ _ _, ?_, rfl⟩
      rw [State.afterCipherPass, finish_keyState, codec_keyState, length_cfgBuild]

/-- Settles O22: the two errors, then the header step and the three tests, each end read off. -/
theorem cfgExtractReturnsPayload : Obligations.CfgExtractReturnsPayload := by
  intro fl s
  split
  case isTrue hlarge => exact failsWith_tooLarge hlarge rfl
  case isFalse hcap =>
    split
    case isTrue h8 => exact ⟨_, cfgExtract_of_invalidLength (by omega) h8 fl, rfl⟩
    case isFalse h8 =>
      intro input p hin hp
      have hlen := hin.1
      have hplen : p.length < 2 ^ 32 := by have := bufCap_lt; have := hp.1; omega
      obtain ⟨hheader, hkey, hframe⟩ := afterCfgHeader_endCfgExtract_frame s input p fl.f rfl
      refine ⟨_, cfgExtract_of_hasInput hin hp (by omega) (by omega) fl, hheader, hkey, hframe, ?_⟩
      unfold State.endCfgExtract
      split_ifs with hsum hfits hforce
      · exact ⟨rfl, rfl⟩
      · exact ⟨rfl, finish_hasOutput _ _ _ (by rw [List.length_drop]; omega)⟩
      · exact ⟨rfl, rfl⟩
      · exact ⟨rfl, finish_hasOutput _ _ _ (by rw [List.length_take, List.length_drop]; omega)⟩

/-- Settles O23: the built image is what `CFG.EXTRACT` decrypts, its checksum is 0 and its length fits. -/
theorem cfgRoundTrip : Obligations.CfgRoundTrip := by
  intro fl s p hin h8 hmax hmv hvv
  have hblocks := cfgBuild_length_mod h8 s.argMagic s.argVersion
  have hcap := length_cfgBuild_le hmax s.argMagic s.argVersion
  have hwrap := cfgWrap_of_hasInput hin (fl := fl) (by simp [hmv, hvv]) hmax
  rw [if_neg (not_not.2 h8)] at hwrap
  refine ⟨_, _, hwrap, rfl, afterCipherPass_hasOutput hblocks hcap _ s, fun fl' u hks hu => ?_⟩
  have hplain := isCipherOf_codec_bcE hblocks s.keyState
  rw [← hks] at hplain hu
  have hlen : u.inLen.toNat = (cfgBuild p s.argMagic s.argVersion).length := hu.1.trans hplain.1.symm
  have hextract := cfgExtractReturnsPayload fl' u
  rw [if_neg (by omega), if_neg (by omega)] at hextract
  obtain ⟨v, hexec, hheader, hkey, _, hresult⟩ := hextract _ _ hu hplain
  have hfits := cfgBuild_lengthFits hmax s.argMagic s.argVersion
  rw [if_neg (fun h => h.2 (checksumNat_cfgBuild _ _ _)), if_pos hfits, drop_cfgBuild] at hresult
  rw [State.HasCfgHeader, if_pos hfits.1] at hheader
  obtain ⟨hmagic, hlength, _, hversion⟩ := hheader
  refine ⟨v, hexec, hresult.1, hresult.2, hmagic.trans (be32At_cfgBuild_magic _ _ _),
    hversion.trans (be32At_cfgBuild_version _ _ _), hlength ▸ toNat_cfgBuild_length hmax _ _, ?_⟩
  rw [hkey, ← hplain.1, hks, State.afterCipherPass, finish_keyState, codec_keyState]

end Sys2Proof.Machine

/-! ## NVRAM: the covered bytes, the escapes, the built image byte by byte, and the way back (spec/45_nvram.md)

The image of `nv_build` is written out as the row of its fields, `nvRow`, which is the part its declared length covers.
`unescape` is taken apart at a cut of its input: what follows the cut sees the last byte of the output before it. The
round trip is then the escaped text cut off from its pad. -/

namespace Sys2Proof.Machine

/-! ### The bytes the CRC-8 covers (R131) -/

/-- A slice whose end is clamped to the sequence is what the unclamped end takes, less the head. -/
theorem slice_min_length (s : List Byte) (a l : Nat) : slice s a (min l s.length - a) = (s.take l).drop a := by
  rw [slice, ← List.drop_take, ← List.take_eq_take_min]

/-- The CRC-8 that the image `m` should carry: over bytes 9 to the declared length, or to the end of `m`. -/
def nvCrcDue (m : List Byte) : Byte := Config.crc8 ((m.take (be32At m 4).toNat).drop 9)

theorem nvCrcCalc_eq_nvCrcDue {m : List Byte} {n : Nat} (h : n = m.length) :
    nvCrcCalc Config.crc8 m (nvLengthOf m).toNat n = nvCrcDue m := by
  rw [h, nvCrcCalc, slice_min_length, nvCrcDue, nvLengthOf]

/-- Byte 8 is neither in the length field nor covered. -/
theorem nvCrcDue_set_eight (m : List Byte) (b : Byte) : nvCrcDue (m.set 8 b) = nvCrcDue m := by
  have hlength : be32At (m.set 8 b) 4 = be32At m 4 := by simp [be32At, byteAt_eq]
  rw [nvCrcDue, nvCrcDue, hlength, List.take_set, List.drop_set_of_lt (by decide)]

/-! ### `NV.CRC8` (R133) -/

theorem nvCrc8_of_shortInput {s : State} (hcap : s.inLen.toNat ≤ Config.bufCap) (hshort : s.inLen.toNat < 20)
    (fl : CmdFlags) : exec (.nvCrc8 fl) s = .next (s.raise .shortInput) := by
  change execNvCrc8 fl s = _
  rw [execNvCrc8, overCapacity_false hcap, if_neg Bool.false_ne_true, if_pos hshort]

theorem nvCrc8_of_hasInput {s : State} {m : List Byte} (h : s.HasInput m) (hlow : 20 ≤ m.length)
    (hcap : m.length ≤ Config.bufCap) (fl : CmdFlags) :
    exec (.nvCrc8 fl) s = .next ({ s with result := (nvCrcDue m).setWidth 32 }.finish [] false) := by
  have hlen := h.1
  change execNvCrc8 fl s = _
  rw [execNvCrc8, overCapacity_false (by omega), if_neg Bool.false_ne_true, if_neg (hlen ▸ Nat.not_lt.2 hlow),
    withInput_of_hasInput h]
  dsimp only
  rw [nvCrcCalc_eq_nvCrcDue hlen]

/-- Settles O24: the two errors in their order, then the CRC-8 due. -/
theorem nvCrc8CoversDeclaredImage : Obligations.NvCrc8CoversDeclaredImage := by
  intro fl s
  split_ifs with hlarge hshort
  · exact failsWith_tooLarge hlarge rfl
  · exact ⟨_, nvCrc8_of_shortInput (by omega) hshort fl, rfl⟩
  · intro m hin
    have hlen := hin.1
    exact ⟨_, nvCrc8_of_hasInput hin (by omega) (by omega) fl, rfl⟩

/-- Settles O25: the CRC-8 due does not depend on byte 8. -/
theorem nvCrc8IgnoresStoredByte : Obligations.NvCrc8IgnoresStoredByte := by
  intro fl s u m b hs hu hlow hcap
  have hlen : (m.set 8 b).length = m.length := List.length_set
  refine ⟨_, _, nvCrc8_of_hasInput hs hlow hcap fl, nvCrc8_of_hasInput hu (by omega) (by omega) fl, ?_⟩
  rw [finish_result, finish_result, nvCrcDue_set_eight]

/-! ### `unescape` at a cut of its input (R136) -/

theorem unescapeFrom_nul_after_newline (d : List Byte) :
    unescapeFrom (some 0x0A#8) (0x00#8 :: d) = unescapeFrom (some 0x0A#8) d := rfl

theorem unescapeFrom_nul {prev : Option Byte} (h : prev ≠ some 0x0A#8) (d : List Byte) :
    unescapeFrom prev (0x00#8 :: d) = 0x0A#8 :: unescapeFrom (some 0x0A#8) d := by
  rw [unescapeFrom, if_pos rfl, Config.newline, if_neg h]

theorem unescapeFrom_of_ne_nul {b : Byte} (h : b ≠ 0x00#8) (prev : Option Byte) (d : List Byte) :
    unescapeFrom prev (b :: d) = b :: unescapeFrom (some b) d := by
  rw [unescapeFrom, if_neg h]

/-- The last byte of a sequence that goes on after `b`, whatever stood before. -/
theorem getLast?_cons_or (b : Byte) (l : List Byte) (prev : Option Byte) :
    (b :: l).getLast?.or prev = l.getLast?.or (some b) := by
  rw [List.getLast?_cons]
  cases l.getLast? <;> rfl

/-- What follows a cut of the input sees the last output byte before it, or `prev` where there is none. -/
theorem unescapeFrom_append (prev : Option Byte) (d e : List Byte) :
    unescapeFrom prev (d ++ e) =
      unescapeFrom prev d ++ unescapeFrom ((unescapeFrom prev d).getLast?.or prev) e := by
  induction d generalizing prev with
  | nil => simp [unescapeFrom]
  | cons b d ih =>
    rw [List.cons_append]
    by_cases hb : b = 0x00#8
    · subst hb
      by_cases hprev : prev = some 0x0A#8
      · subst hprev
        exact ih _
      · rw [unescapeFrom_nul hprev, unescapeFrom_nul hprev, ih, getLast?_cons_or, List.cons_append]
    · rw [unescapeFrom_of_ne_nul hb, unescapeFrom_of_ne_nul hb, ih, getLast?_cons_or, List.cons_append]

theorem unescape_append (d e : List Byte) :
    unescape (d ++ e) = unescape d ++ unescapeFrom (unescape d).getLast? e := by
  rw [unescape, unescapeFrom_append, Option.or_none]
  rfl

/-- Settles O27: the cut before the last byte. -/
theorem unescapeReadsOnlyLastOutput : Obligations.UnescapeReadsOnlyLastOutput := by
  refine ⟨rfl, fun d b => ?_⟩
  rw [unescape_append]
  split_ifs with hb hlast
  · rw [unescapeFrom_of_ne_nul hb]
    rfl
  · obtain rfl := not_not.1 hb
    rw [hlast]
    exact List.append_nil _
  · obtain rfl := not_not.1 hb
    rw [unescapeFrom_nul hlast]
    rfl


/-! ### `NV.EXTRACT`: the length step and the tests (R135, R137) -/

/-- The declared length of the NVRAM image `m` covers the header, is no more than an image's, and is present (R137). -/
abbrev NvLengthFits (m : List Byte) : Prop :=
  20 ≤ (be32At m 4).toNat ∧ (be32At m 4).toNat ≤ 65536 ∧ (be32At m 4).toNat ≤ m.length

/-- The length step in plain numbers: the wrapping subtraction makes a length below 20 too large. -/
theorem nvLengthStep_eq {m : List Byte} (hlow : 20 ≤ m.length) (hm : m.length < 2 ^ 32) (force : Bool) :
    nvLengthStep force (nvLengthOf m) m.length =
      if NvLengthFits m then some ((be32At m 4).toNat - 20, false)
      else if force = false then none
      else some (min 65516 (m.length - 20), true) := by
  have hsub : (nvLengthOf m - 20#32).toNat = wrapSub (be32At m 4) 20 := by
    rw [nvLengthOf, BitVec.toNat_sub, wrapSub, show (20#32).toNat = 20 from rfl]
    omega
  have htest : wrapSub (be32At m 4) 20 ≤ min 65516 (m.length - 20) ↔ NvLengthFits m := by
    unfold wrapSub NvLengthFits
    omega
  rw [nvLengthStep, hsub]
  dsimp only [Config.nvDataMax, Config.nvHdr]
  rw [if_congr htest rfl rfl]
  split
  case isTrue hfits =>
    have hsize : wrapSub (be32At m 4) 20 = (be32At m 4).toNat - 20 := by
      unfold wrapSub
      omega
    rw [hsize]
  case isFalse => cases force <;> rfl

/-- The data region of the declared length. -/
theorem slice_declaredLength (m : List Byte) (l : Nat) : slice m 20 (l - 20) = (m.take l).drop 20 :=
  List.drop_take.symm

/-- The forced length asks for no more than what is present. -/
theorem slice_forcedDataLength (m : List Byte) : slice m 20 (min 65516 (m.length - 20)) = (m.drop 20).take 65516 := by
  rw [slice, ← List.length_drop, ← List.take_eq_take_min]

/-- The state in which `NV.EXTRACT` makes its tests: the header of the image parsed. -/
def State.afterNvHeader (s : State) (m : List Byte) : State :=
  { s with hdrMagic := be32At m 0, hdrLength := be32At m 4, hdrCheck := (byteAt m 8).setWidth 32 }

/-- How `NV.EXTRACT` ends for the image `m`. -/
def State.endNvExtract (s : State) (force : Bool) (m : List Byte) : State :=
  if force = false ∧ be32At m 0 ≠ Config.nvMagic then s.raise .badMagic
  else if force = false ∧ nvCrcDue m ≠ byteAt m 8 then s.raise .badCrc
  else if NvLengthFits m then s.finish (unescape ((m.take (be32At m 4).toNat).drop 20)) false
  else if force = false then s.raise .tooLarge
  else s.finish (unescape ((m.drop 20).take 65516)) true

theorem nvExtract_of_shortInput {s : State} (hcap : s.inLen.toNat ≤ Config.bufCap) (hshort : s.inLen.toNat < 20)
    (fl : CmdFlags) : exec (.nvExtract fl) s = .next (s.raise .shortInput) := by
  change execNvExtract fl s = _
  rw [execNvExtract, overCapacity_false hcap, if_neg Bool.false_ne_true, if_pos hshort]

/-- Past the two errors the command parses the header and ends by the tests on the image. -/
theorem nvExtract_of_hasInput {s : State} {m : List Byte} (h : s.HasInput m) (hlow : 20 ≤ m.length)
    (hcap : m.length ≤ Config.bufCap) (fl : CmdFlags) :
    exec (.nvExtract fl) s = .next ((s.afterNvHeader m).endNvExtract fl.f m) := by
  have hlen := h.1
  have hm : m.length < 2 ^ 32 := Nat.lt_of_le_of_lt hcap bufCap_lt
  change execNvExtract fl s = _
  rw [execNvExtract, overCapacity_false (by omega), if_neg Bool.false_ne_true, if_neg (hlen ▸ Nat.not_lt.2 hlow),
    withInput_of_hasInput h]
  dsimp only
  rw [nvCrcCalc_eq_nvCrcDue hlen, hlen, nvLengthStep_eq hlow hm, nvMagicOf, nvCrcOf, State.endNvExtract]
  split_ifs with hmagic hcrc hfits hforce
  · rfl
  · rfl
  · rw [← slice_declaredLength]
    rfl
  · rfl
  · rw [← slice_forcedDataLength]
    rfl

/-- The end writes what the end of any command writes. -/
theorem exists_endNvExtract_eq (s : State) (force : Bool) (m : List Byte) :
    ∃ obuf outLen status, s.endNvExtract force m = { s with obuf := obuf, outLen := outLen, status := status } := by
  unfold State.endNvExtract
  split_ifs
  all_goals exact ⟨_, _, _, rfl⟩

/-- Whatever the tests say, the header is parsed, and only it and the output are written. -/
theorem afterNvHeader_endNvExtract_frame (s : State) (m : List Byte) (force : Bool) {t : State}
    (ht : t = (s.afterNvHeader m).endNvExtract force m) :
    t.HasNvHeader m ∧
      t = { s with hdrMagic := t.hdrMagic, hdrLength := t.hdrLength, hdrCheck := t.hdrCheck, obuf := t.obuf,
                   outLen := t.outLen, status := t.status } := by
  obtain ⟨obuf, outLen, status, hend⟩ := exists_endNvExtract_eq (s.afterNvHeader m) force m
  rw [ht, hend]
  exact ⟨⟨rfl, rfl, rfl⟩, rfl⟩

/-- An unescaped text is no longer than the input it was cut from, so `OUT_LEN` holds its length. -/
theorem finish_unescape_hasOutput (s : State) {d : List Byte} (h : d.length < 2 ^ 32) (warn : Bool) :
    (s.finish (unescape d) warn).HasOutput (unescape d) :=
  finish_hasOutput s _ warn (Nat.lt_of_le_of_lt (length_unescapeFrom_le none d) h)

/-- Settles O26: the two errors, then the header step and the tests, each end read off. -/
theorem nvExtractReturnsText : Obligations.NvExtractReturnsText := by
  intro fl s
  split
  case isTrue hlarge => exact failsWith_tooLarge hlarge rfl
  case isFalse hcap =>
    split
    case isTrue hshort => exact ⟨_, nvExtract_of_shortInput (by omega) hshort fl, rfl⟩
    case isFalse hlow =>
      intro m hin
      have hlen := hin.1
      have hm : m.length < 2 ^ 32 := by have := bufCap_lt; omega
      obtain ⟨hheader, hframe⟩ := afterNvHeader_endNvExtract_frame s m fl.f rfl
      refine ⟨_, nvExtract_of_hasInput hin (by omega) (by omega) fl, hheader, hframe, ?_⟩
      unfold State.endNvExtract nvCrcDue
      split_ifs with hmagic hcrc hfits hforce
      · exact ⟨rfl, rfl⟩
      · exact ⟨rfl, rfl⟩
      · exact ⟨rfl, finish_unescape_hasOutput _ (by rw [List.length_drop, List.length_take]; omega) _⟩
      · exact ⟨rfl, rfl⟩
      · exact ⟨rfl, finish_unescape_hasOutput _ (by rw [List.length_take, List.length_drop]; omega) _⟩

/-! ### The built image, field after field (R132, R138) -/

/-- The part of a built image that its declared length covers, for a stored CRC-8 and a data region. -/
def nvRow (crc : Byte) (data : List Byte) : List Byte :=
  toBe32 Config.nvMagic ++ toBe32 (BitVec.ofNat 32 (ceil4 (20 + data.length))) ++ [crc, Config.nvField1] ++
    Config.nvField2 ++ (data ++ List.replicate (ceil4 (20 + data.length) - (20 + data.length)) 0x00#8)

theorem length_nvRow (crc : Byte) (data : List Byte) : (nvRow crc data).length = ceil4 (20 + data.length) := by
  have hpad := le_ceil4 (20 + data.length)
  simp only [nvRow, List.length_append, length_toBe32, length_nvField2, List.length_cons, List.length_nil,
    List.length_replicate]
  omega

/-- The covered bytes come after the stored CRC-8. -/
theorem drop_nine_nvRow (crc crc' : Byte) (data : List Byte) : (nvRow crc data).drop 9 = (nvRow crc' data).drop 9 := rfl

/-- The image that `NV.WRAP` builds of a text. -/
def nvWrapImage (text : List Byte) : List Byte :=
  nvBuild Config.crc8 Config.nvMagic Config.nvField1 Config.nvField2 (escape text)

/-- The CRC-8 that `NV.WRAP` stores for a text. -/
def nvWrapCrc (text : List Byte) : Byte := Config.crc8 ((nvRow 0#8 (escape text)).drop 9)

/-- The built image is the row of its fields and the filler: the CRC-8 is taken with a zero in its place. -/
theorem nvWrapImage_eq (text : List Byte) :
    nvWrapImage text =
      nvRow (nvWrapCrc text) (escape text) ++ List.replicate (65536 - ceil4 (20 + text.length)) 0xFF#8 := by
  have hcrc : nvCrcCalc Config.crc8 (nvRow 0#8 (escape text)) (ceil4 (20 + (escape text).length))
      (ceil4 (20 + (escape text).length)) = nvWrapCrc text := by
    rw [← length_nvRow 0#8, nvCrcCalc, slice_min_length, List.take_length, nvWrapCrc]
  rw [← hcrc, ← length_escape text]
  rfl

theorem length_nvWrapImage {text : List Byte} (h : text.length ≤ 65516) : (nvWrapImage text).length = 65536 :=
  length_nvBuild _ _ _ _ _ length_nvField2 (by rwa [length_escape])

/-- The bytes up to the declared length. -/
theorem take_nvWrapImage (text : List Byte) :
    (nvWrapImage text).take (ceil4 (20 + text.length)) = nvRow (nvWrapCrc text) (escape text) := by
  rw [nvWrapImage_eq, List.take_left' (by rw [length_nvRow, length_escape])]

theorem be32At_nvWrapImage_magic (text : List Byte) : be32At (nvWrapImage text) 0 = Config.nvMagic := by
  rw [nvWrapImage_eq]
  exact be32_of_toBe32 _

theorem toNat_nvWrapImage_length {text : List Byte} (h : text.length ≤ 65516) :
    (be32At (nvWrapImage text) 4).toNat = ceil4 (20 + text.length) := by
  have hle := ceil4_le (20 + text.length) (by omega)
  have hfield : be32At (nvWrapImage text) 4 = BitVec.ofNat 32 (ceil4 (20 + (escape text).length)) := by
    rw [nvWrapImage_eq]
    exact be32_of_toBe32 _
  rw [hfield, length_escape, BitVec.toNat_ofNat, Nat.mod_eq_of_lt (by omega)]

/-- The stored CRC-8 is that of the image from its byte 9 to its declared length. -/
theorem byteAt_nvWrapImage_crc (text : List Byte) :
    byteAt (nvWrapImage text) 8 = Config.crc8 (((nvWrapImage text).take (ceil4 (20 + text.length))).drop 9) := by
  rw [take_nvWrapImage, drop_nine_nvRow _ 0#8, nvWrapImage_eq]
  rfl

theorem byteAt_nvWrapImage_field1 (text : List Byte) : byteAt (nvWrapImage text) 9 = Config.nvField1 := by
  rw [nvWrapImage_eq]
  rfl

/-! ### The built image, byte by byte -/

theorem byteAt_drop (s : List Byte) (a i : Nat) : byteAt (s.drop a) i = byteAt s (a + i) := by
  rw [byteAt_eq, byteAt_eq, List.getElem?_drop]

theorem byteAt_append_left {s : List Byte} {i : Nat} (h : i < s.length) (v : List Byte) :
    byteAt (s ++ v) i = byteAt s i := by
  rw [byteAt_eq, byteAt_eq, List.getElem?_append_left h]

theorem byteAt_append_right {s : List Byte} {i : Nat} (h : s.length ≤ i) (v : List Byte) :
    byteAt (s ++ v) i = byteAt v (i - s.length) := by
  rw [byteAt_eq, byteAt_eq, List.getElem?_append_right h]

theorem byteAt_replicate {n i : Nat} (h : i < n) (b : Byte) : byteAt (List.replicate n b) i = b := by
  rw [byteAt_eq, List.getElem?_replicate, if_pos h, Option.getD_some]

theorem byteAt_escape {text : List Byte} {j : Nat} (h : j < text.length) :
    byteAt (escape text) j = if byteAt text j = 0x0A#8 then 0x00#8 else byteAt text j := by
  rw [byteAt_eq, escape, List.getElem?_map, getElem?_eq_byteAt h]
  rfl

theorem byteAt_nvWrapImage_field2 (text : List Byte) (j : Fin 10) :
    byteAt (nvWrapImage text) (10 + j) = Config.nvField2At j := by
  obtain ⟨rest, hdrop⟩ : ∃ rest, (nvWrapImage text).drop 10 = Config.nvField2 ++ rest :=
    ⟨_, by rw [nvWrapImage_eq]; rfl⟩
  rw [← byteAt_drop, hdrop, byteAt_append_left (by simp), byteAt_eq, Config.nvField2, List.getElem?_ofFn]
  simp

/-- What follows the header: the escaped text, the pad and the filler. -/
theorem drop_twenty_nvWrapImage (text : List Byte) :
    (nvWrapImage text).drop 20 =
      escape text ++ List.replicate (ceil4 (20 + text.length) - (20 + text.length)) 0x00#8 ++
        List.replicate (65536 - ceil4 (20 + text.length)) 0xFF#8 := by
  rw [nvWrapImage_eq, ← length_escape text]
  rfl

theorem byteAt_nvWrapImage_text {text : List Byte} {j : Nat} (h : j < text.length) :
    byteAt (nvWrapImage text) (20 + j) = if byteAt text j = 0x0A#8 then 0x00#8 else byteAt text j := by
  have hj : j < (escape text).length := by rwa [length_escape]
  rw [← byteAt_drop, drop_twenty_nvWrapImage, List.append_assoc, byteAt_append_left hj, byteAt_escape h]

theorem byteAt_nvWrapImage_pad {text : List Byte} {j : Nat} (hlow : 20 + text.length ≤ j)
    (hhigh : j < ceil4 (20 + text.length)) : byteAt (nvWrapImage text) j = 0x00#8 := by
  obtain ⟨i, rfl⟩ := Nat.exists_eq_add_of_le hlow
  have hi : i < ceil4 (20 + text.length) - (20 + text.length) := by omega
  rw [Nat.add_assoc, ← byteAt_drop, drop_twenty_nvWrapImage, List.append_assoc,
    byteAt_append_right (by rw [length_escape]; omega), length_escape, Nat.add_sub_cancel_left,
    byteAt_append_left (by rwa [List.length_replicate]), byteAt_replicate hi]

theorem byteAt_nvWrapImage_fill {text : List Byte} {j : Nat} (hlow : ceil4 (20 + text.length) ≤ j)
    (hhigh : j < 65536) : byteAt (nvWrapImage text) j = 0xFF#8 := by
  have hrow : (nvRow (nvWrapCrc text) (escape text)).length = ceil4 (20 + text.length) := by
    rw [length_nvRow, length_escape]
  rw [nvWrapImage_eq, byteAt_append_right (by omega), byteAt_replicate (by omega)]

/-! ### `NV.WRAP` (R139) -/

theorem nvWrap_of_tooLong {s : State} (hcap : s.inLen.toNat ≤ Config.bufCap) (hlong : 65516 < s.inLen.toNat)
    (fl : CmdFlags) : exec (.nvWrap fl) s = .next (s.raise .tooLarge) := by
  change execNvWrap fl s = _
  rw [execNvWrap, overCapacity_false hcap, if_neg Bool.false_ne_true, if_pos hlong]

theorem nvWrap_of_hasInput {s : State} {text : List Byte} (h : s.HasInput text) (hfit : text.length ≤ 65516)
    (fl : CmdFlags) : exec (.nvWrap fl) s = .next (s.finish (nvWrapImage text) false) := by
  have hlen := h.1
  have hcap := nvImage_le_bufCap
  change execNvWrap fl s = _
  rw [execNvWrap, overCapacity_false (by omega), if_neg Bool.false_ne_true, if_neg (hlen ▸ Nat.not_lt.2 hfit),
    withInput_of_hasInput h]
  rfl

theorem finish_nvWrapImage_hasOutput (s : State) {text : List Byte} (h : text.length ≤ 65516) :
    (s.finish (nvWrapImage text) false).HasOutput (nvWrapImage text) :=
  finish_hasOutput s _ false (by rw [length_nvWrapImage h]; decide)

/-- Settles O28: the error above either bound, then the built image, whose bytes read off. -/
theorem nvWrapBuildsImage : Obligations.NvWrapBuildsImage := by
  intro fl s
  split_ifs with hlarge
  · rcases Nat.lt_or_ge Config.bufCap s.inLen.toNat with hover | hcap
    · exact failsWith_tooLarge hover rfl
    · exact ⟨_, nvWrap_of_tooLong hcap (by omega) fl, rfl⟩
  · intro text hin
    have hlen := hin.1
    have hfit : text.length ≤ 65516 := by omega
    refine ⟨_, _, nvWrap_of_hasInput hin hfit fl, finish_nvWrapImage_hasOutput s hfit, length_nvWrapImage hfit, ?_,
      be32At_nvWrapImage_magic text, toNat_nvWrapImage_length hfit, byteAt_nvWrapImage_crc text,
      byteAt_nvWrapImage_field1 text, byteAt_nvWrapImage_field2 text, fun _ => byteAt_nvWrapImage_text,
      fun _ => byteAt_nvWrapImage_pad, fun _ => byteAt_nvWrapImage_fill⟩
    rw [State.finish, length_nvWrapImage hfit]
    rfl

/-! ### What escape and `unescape` make of a text (R136, R138, R140) -/

theorem escape_cons (b : Byte) (t : List Byte) :
    escape (b :: t) = (if b = 0x0A#8 then 0x00#8 else b) :: escape t := rfl

theorem length_unescapeFrom_escape_le (prev : Option Byte) (t : List Byte) :
    (unescapeFrom prev (escape t)).length ≤ t.length :=
  length_escape t ▸ length_unescapeFrom_le prev (escape t)

/-- Two newlines in a row begin at the byte before or come later. -/
theorem emptyLine_cons_iff (prev : Option Byte) (b : Byte) (t : List Byte) :
    [0x0A#8, 0x0A#8] <:+: prev.toList ++ b :: t ↔
      (prev = some 0x0A#8 ∧ b = 0x0A#8) ∨ [0x0A#8, 0x0A#8] <:+: (some b).toList ++ t := by
  cases prev with
  | none => simp
  | some p => simp [List.infix_cons_iff (l₂ := b :: t), eq_comm]

/-- A newline that follows a newline does not come back: its NUL is dropped, and the rest is too short. -/
theorem unescapeFrom_newline_nul_ne (b : Byte) (t : List Byte) :
    unescapeFrom (some 0x0A#8) (0x00#8 :: escape t) ≠ b :: t := by
  intro h
  have hle := length_unescapeFrom_escape_le (some 0x0A#8) t
  rw [← unescapeFrom_nul_after_newline, h, List.length_cons] at hle
  omega

/-- A NUL in the text does not come back: `unescape` drops it or makes it a newline. -/
theorem unescapeFrom_nul_ne (prev : Option Byte) (t : List Byte) :
    unescapeFrom prev (0x00#8 :: escape t) ≠ 0x00#8 :: t := by
  by_cases hprev : prev = some 0x0A#8
  · rw [hprev]
    exact unescapeFrom_newline_nul_ne _ t
  · rw [unescapeFrom_nul hprev]
    simp

/-- A text comes back from its escape after `prev` exactly if it has no NUL and makes no empty line there. -/
theorem unescapeFrom_escape_eq_iff (prev : Option Byte) (t : List Byte) :
    unescapeFrom prev (escape t) = t ↔ 0x00#8 ∉ t ∧ ¬ [0x0A#8, 0x0A#8] <:+: prev.toList ++ t := by
  induction t generalizing prev with
  | nil => cases prev <;> simp [escape, unescapeFrom, List.infix_cons_iff]
  | cons b t ih =>
    rw [escape_cons, emptyLine_cons_iff]
    split_ifs with hnewline
    · subst hnewline
      by_cases hprev : prev = some 0x0A#8
      · subst hprev
        exact iff_of_false (unescapeFrom_newline_nul_ne _ t) (by simp)
      · rw [unescapeFrom_nul hprev, List.cons_inj_right, ih]
        simp [hprev]
    · by_cases hnul : b = 0x00#8
      · subst hnul
        exact iff_of_false (unescapeFrom_nul_ne prev t) (by simp)
      · rw [unescapeFrom_of_ne_nul hnul, List.cons_inj_right, ih]
        simp [hnewline, Ne.symm hnul]

/-- A text comes back from its escape alone exactly if it has no NUL and no empty line. -/
theorem unescape_escape_eq_iff (t : List Byte) :
    unescape (escape t) = t ↔ 0x00#8 ∉ t ∧ ¬ [0x0A#8, 0x0A#8] <:+: t :=
  unescapeFrom_escape_eq_iff none t

/-- A run of NULs makes one newline, and none after a newline. -/
theorem unescapeFrom_replicate_nul (prev : Option Byte) (k : Nat) :
    unescapeFrom prev (List.replicate k 0x00#8) = if k = 0 ∨ prev = some 0x0A#8 then [] else [0x0A#8] := by
  induction k generalizing prev with
  | zero => simp [unescapeFrom]
  | succ k ih =>
    rw [List.replicate_succ]
    by_cases hprev : prev = some 0x0A#8
    · rw [hprev, unescapeFrom_nul_after_newline, ih, if_pos (.inr rfl), if_pos (.inr rfl)]
    · rw [unescapeFrom_nul hprev, ih, if_pos (.inr rfl), if_neg (by simp [hprev])]

/-- The pad adds one newline to the text that comes back, or nothing. -/
theorem unescape_escape_pad (t : List Byte) (k : Nat) :
    unescape (escape t ++ List.replicate k 0x00#8) =
      unescape (escape t) ++ if k = 0 ∨ (unescape (escape t)).getLast? = some 0x0A#8 then [] else [0x0A#8] := by
  rw [unescape_append, unescapeFrom_replicate_nul]

/-- A final newline of the text comes back as the final byte, whatever stands before it. -/
theorem getLast?_unescape_escape {t : List Byte} (h : t.getLast? = some 0x0A#8) :
    (unescape (escape t)).getLast? = some 0x0A#8 := by
  obtain ⟨l, rfl⟩ := List.getLast?_eq_some_iff.1 h
  have hescape : escape (l ++ [0x0A#8]) = escape l ++ List.replicate 1 0x00#8 := by simp [escape, Config.newline]
  rw [hescape, unescape_escape_pad]
  by_cases hlast : (unescape (escape l)).getLast? = some 0x0A#8
  · rw [if_pos (.inr hlast), List.append_nil, hlast]
  · rw [if_neg (by simp [hlast])]
    exact List.getLast?_concat

/-- The padded escape gives the text back exactly if the escape alone does and the pad adds nothing. -/
theorem unescape_escape_pad_eq_iff (t : List Byte) (k : Nat) :
    unescape (escape t ++ List.replicate k 0x00#8) = t ↔
      unescape (escape t) = t ∧ (k = 0 ∨ t.getLast? = some 0x0A#8) := by
  rw [unescape_escape_pad]
  split_ifs with hpad
  · rw [List.append_nil]
    exact ⟨fun h => ⟨h, h ▸ hpad⟩, And.left⟩
  · constructor
    · intro h
      have hlast : t.getLast? = some 0x0A#8 := by rw [← h]; exact List.getLast?_concat
      exact absurd (.inr (getLast?_unescape_escape hlast)) hpad
    · rintro ⟨h, hend⟩
      exact absurd (h.symm ▸ hend) hpad

/-! ### The way back (R140) -/

theorem drop_take_nvWrapImage (text : List Byte) :
    ((nvWrapImage text).take (ceil4 (20 + text.length))).drop 20 =
      escape text ++ List.replicate (ceil4 (20 + text.length) - (20 + text.length)) 0x00#8 := by
  rw [take_nvWrapImage, ← length_escape text]
  rfl

/-- There is no pad exactly if the header and the text fill whole words. -/
theorem pad_eq_zero_iff (n : Nat) : ceil4 n - n = 0 ↔ n % 4 = 0 := by
  unfold ceil4
  omega

/-- The image of a text passes every test of `NV.EXTRACT`, with force or without. -/
theorem endNvExtract_nvWrapImage {text : List Byte} (h : text.length ≤ 65516) (s : State) (force : Bool) :
    s.endNvExtract force (nvWrapImage text) =
      s.finish (unescape (escape text ++
        List.replicate (ceil4 (20 + text.length) - (20 + text.length)) 0x00#8)) false := by
  have hlength := toNat_nvWrapImage_length h
  have hcrc : nvCrcDue (nvWrapImage text) = byteAt (nvWrapImage text) 8 := by
    rw [nvCrcDue, hlength, byteAt_nvWrapImage_crc]
  have hfits : NvLengthFits (nvWrapImage text) := by
    have hlow := le_ceil4 (20 + text.length)
    have hhigh := ceil4_le (20 + text.length) (by omega)
    rw [NvLengthFits, hlength, length_nvWrapImage h]
    omega
  rw [State.endNvExtract, if_neg (fun hbad => hbad.2 (be32At_nvWrapImage_magic text)), if_neg (fun hbad => hbad.2 hcrc),
    if_pos hfits, hlength, drop_take_nvWrapImage]

/-- Settles O29: the built image passes the tests, and its data region is the escaped text with its pad. -/
theorem nvRoundTrip : Obligations.NvRoundTrip := by
  intro fl s text hin hfit
  refine ⟨_, _, nvWrap_of_hasInput hin hfit fl, finish_nvWrapImage_hasOutput s hfit, fun fl' u hu => ?_⟩
  have hlen := length_nvWrapImage hfit
  have hlow := le_ceil4 (20 + text.length)
  have hhigh := ceil4_le (20 + text.length) (by omega)
  have hextract := nvExtract_of_hasInput hu (by omega) (hlen ▸ nvImage_le_bufCap) fl'
  rw [endNvExtract_nvWrapImage hfit] at hextract
  refine ⟨_, _, hextract, rfl, finish_unescape_hasOutput _ ?_ _, be32At_nvWrapImage_magic text,
    toNat_nvWrapImage_length hfit, ?_, fun hnul hempty hend => ?_⟩
  · rw [List.length_append, length_escape, List.length_replicate]
    omega
  · rw [unescape_escape_pad_eq_iff, unescape_escape_eq_iff, pad_eq_zero_iff, and_assoc]
  · have htext := (unescape_escape_eq_iff text).2 ⟨hnul, hempty⟩
    rw [unescape_escape_pad, htext, if_neg fun hpad => hend (hpad.imp_left (pad_eq_zero_iff _).1)]

end Sys2Proof.Machine

/-! ## Reset and hazards: what `RESET` leaves, and how every command ends (spec/70_reset_and_hazards.md)

A command that reads its input stops in one place alone, the read of the input; its other branches all end in a next
state. -/

namespace Sys2Proof.Machine

/-! ### `RESET` (R22, R170) -/

/-- The register file is the block's, so `RESET` leaves none of what it held. -/
theorem readReg_hostReset (s : State) (n : Nat) : (hostReset s).readReg n = 0#32 := by
  unfold State.readReg
  split <;> rfl

/-- Settles O40: the step is `hostReset` of the state that has lost the action. -/
theorem resetClearsTheBlock : Obligations.ResetClearsTheBlock := by
  intro s rest hscript
  exact ⟨hostReset { s with script := rest }, step_of_script hscript, rfl, readReg_hostReset _,
    fun a => ⟨read_nil a, read_nil a⟩, rfl, rfl⟩

/-! ### The end of a command (R25, R177) -/

/-- A next state, or the fault of a read of an input that `s` holds only in part. -/
def State.Completes (s : State) (x : Result) : Prop :=
  (∃ t, x = .next t) ∨ (x = .fault .unwrittenInput ∧ ∃ a, a < s.inLen.toNat ∧ s.ibuf.read a = none)

theorem completes_next (s t : State) : s.Completes (.next t) := .inl ⟨t, rfl⟩

/-- A test on which the command ends, or goes on. -/
theorem completes_next_or {s t : State} {c : Prop} [Decidable c] {x : Result} (hx : s.Completes x) :
    s.Completes (if c then .next t else x) := by
  split
  · exact completes_next s t
  · exact hx

/-- The read of the input is the one place where a command stops. -/
theorem completes_withInput {s : State} {k : List Byte → Result} (hk : ∀ input, s.Completes (k input)) :
    s.Completes (s.withInput k) := by
  rcases withInput_cases s k with ⟨input, _, hread⟩ | ⟨hunwritten, hfault⟩
  · exact hread ▸ hk input
  · exact .inr ⟨hfault, hunwritten⟩

theorem cipherPass_completes (f : Bytes8 → Bytes8 → Bytes8) (s : State) : s.Completes (cipherPass f s) :=
  completes_next_or (completes_next_or (completes_withInput fun _ => completes_next _ _))

theorem cfgExtract_completes (fl : CmdFlags) (s : State) : s.Completes (exec (.cfgExtract fl) s) := by
  refine completes_next_or (completes_next_or (completes_withInput fun input => completes_next_or ?_))
  split
  · exact completes_next _ _
  · exact completes_next _ _

theorem nvExtract_completes (fl : CmdFlags) (s : State) : s.Completes (exec (.nvExtract fl) s) := by
  refine completes_next_or (completes_next_or (completes_withInput fun input =>
    completes_next_or (completes_next_or ?_)))
  split
  · exact completes_next _ _
  · exact completes_next _ _

/-- Each command: its error tests, then the read of its input if it has one, then its end. -/
theorem exec_completes (i : Instr) (s : State) : s.Completes (exec i s) := by
  have hread {k : List Byte → State} : s.Completes (s.withInput fun input => .next (k input)) :=
    completes_withInput fun _ => completes_next _ _
  cases i with
  | ksReseed fl => exact completes_next _ _
  | ksNext fl => exact completes_next _ _
  | mgName fl => exact completes_next _ _
  | bcEnc fl => exact cipherPass_completes _ s
  | bcDec fl => exact cipherPass_completes _ s
  | cfgDecrypt fl => exact cipherPass_completes _ s
  | csCalc fl => exact completes_next_or hread
  | csVerify fl => exact completes_next_or hread
  | mgDerive fl => exact completes_next_or hread
  | csApply fl =>
    exact completes_next_or (completes_next_or (completes_withInput fun _ => completes_next_or (completes_next _ _)))
  | nvCrc8 fl => exact completes_next_or (completes_next_or hread)
  | nvWrap fl => exact completes_next_or (completes_next_or hread)
  | cfgWrap fl =>
    exact completes_next_or (completes_next_or (completes_next_or
      (completes_withInput fun _ => completes_next_or (completes_next _ _))))
  | cfgExtract fl => exact cfgExtract_completes fl s
  | nvExtract fl => exact nvExtract_completes fl s

/-- Settles O32, command by command. -/
theorem commandsCompleteOnWrittenInput : Obligations.CommandsCompleteOnWrittenInput := exec_completes

end Sys2Proof.Machine
